-- ==== Sys2Proof/Word.lean ====
section
/-! DEFINITION. The word types of the core (spec/00_scope.md R5, R7, R8): every value is an unsigned
bit vector, bit 0 least significant. -/

namespace Sys2Proof

/-- A byte: what a memory cell, a general register or a timer holds (R5). -/
abbrev Byte := BitVec 8

/-- A 16-bit value that addresses memory: I, pc, a return address (R5, R22, R23, R24). -/
abbrev Addr := BitVec 16

/-- The 16-bit instruction word (R60). -/
abbrev Opcode := BitVec 16

/-- The number of a general register, V0..VF (R20). -/
abbrev Reg := Fin 16

/-- VF, register 0xF, which is also the flag register (R21). -/
abbrev regVF : Reg := 15

/-- V0, which JP V0, nnn reads whatever the X field holds (R108). -/
abbrev regV0 : Reg := 0

/-- The register a 4-bit field names (R61). -/
abbrev regOfBits (b : BitVec 4) : Reg := ⟨b.toNat, b.isLt⟩

/-- The 4-bit field that names a register (R61). -/
abbrev regBits (r : Reg) : BitVec 4 := BitVec.ofFin r

/-- The built-in font: 16 glyphs of 5 bytes (R5, R47). -/
abbrev Font := Vector Byte 80

end Sys2Proof
end

