-- ==== Sys2Proof/Config.lean ====
section
/-! DEFINITION. What one machine fixes (the parameters of spec/00_scope.md R6) and what the outside
world supplies to one cycle (spec/30_encoding.md R69, R71, R72), with the free values that stand for
arguments nobody fixed. -/

namespace Sys2Proof

/-- `SYS_POLICY` (R6, decision D2): what 0nnn other than 00E0 and 00EE does. -/
inductive SysPolicy where
  /-- SYS raises UnrecognizedInstruction (the default). -/
  | fault
  /-- SYS has no effect. -/
  | nop
  deriving DecidableEq, Repr

/-- `VF_ALIAS_ORDER` (R6, decision D5): which write comes last when the result register is VF. -/
inductive VfAliasOrder where
  /-- Result first, flag last (the default). -/
  | flagLast
  /-- Flag first, result last. -/
  | resultLast
  deriving DecidableEq, Repr

/-- `SHIFT_SOURCE` (R6, decision D6): the register SHR and SHL shift. -/
inductive ShiftSource where
  /-- V[X] (the default). -/
  | vx
  /-- V[Y]. -/
  | vy
  deriving DecidableEq, Repr

/-- `LOADSTORE_I_INCREMENT` (R6, decision D7): what the block transfers do to I. -/
inductive LoadStoreInc where
  /-- I is left alone (the default). -/
  | none
  /-- I moves past the copied range. -/
  | xPlusOne
  deriving DecidableEq, Repr

/-- `DISPLAY_CHANGED_POLICY` (R6, decision D8): who clears the changed flag. -/
inductive ChangedPolicy where
  /-- Every cycle clears it at its start (the default). -/
  | perCycle
  /-- Only the host clears it. -/
  | sticky
  deriving DecidableEq, Repr

/-- `DRW_VF_SAMPLE` (R6, decision D23): when DRW reads its coordinates. -/
inductive DrwVfSample where
  /-- Before VF is cleared (the default). -/
  | beforeClear
  /-- After VF is cleared. -/
  | afterClear
  deriving DecidableEq, Repr

/-- The parameters of R6 that act on the core. One machine has one value of this structure for its
whole life (DESIGN CHOICE, safe, log 1: it is held in `State.params`, so a statement over all states is
a statement over all parameter values). `END_PC` is no parameter of the core (R248): see Machine/Run.lean. -/
structure Params where
  sysPolicy : SysPolicy
  /-- `STRICT_SKIP_LOW_NIBBLE` (decision D3): 5xyN and 9xyN with N ≠ 0 are unrecognized. -/
  strictSkip : Bool
  vfAliasOrder : VfAliasOrder
  shiftSource : ShiftSource
  loadStoreInc : LoadStoreInc
  changedPolicy : ChangedPolicy
  drwVfSample : DrwVfSample
  /-- `FONT` (decision D17): the 80 bytes at 0x000..0x04F after initialization. -/
  font : Font
  deriving DecidableEq, Repr

/-- The arguments the caller gives one cycle: `cycle(keys, r)` of R69. -/
structure CycleInput where
  /-- The input snapshot, true where the key is pressed (R28). -/
  keys : Vector Bool 16
  /-- The random byte of this cycle (R71). -/
  draw : Byte
  deriving DecidableEq, Repr

/-- FREE VALUE (log 2): the key snapshot of the cycle with this index, where no argument was fixed.
R28: "Supplied fresh by the caller each cycle". -/
opaque Config.freeKeys : Nat → Vector Bool 16

/-- FREE VALUE (log 2): the random byte of the cycle with this index, where no argument was fixed.
R71: "a free input, under no law". -/
opaque Config.freeDraw : Nat → Byte

end Sys2Proof
end

