-- ==== Sys2Proof/Machine/Defaults.lean ====
section
/-! DEFINITION. The default value of every parameter (spec/00_scope.md R6), the default font
(spec/20_memory.md R47) and the fixed addresses and sizes (R5). -/

namespace Sys2Proof

/-- The sixteen glyphs of R47, one row per glyph, top row of the glyph first. PRESUMED by the spec
itself (general knowledge, D17), unsafe, log 7. -/
def fontGlyphs : List (List Byte) :=
  [ [0xF0, 0x90, 0x90, 0x90, 0xF0], -- 0
    [0x20, 0x60, 0x20, 0x20, 0x70], -- 1
    [0xF0, 0x10, 0xF0, 0x80, 0xF0], -- 2
    [0xF0, 0x10, 0xF0, 0x10, 0xF0], -- 3
    [0x90, 0x90, 0xF0, 0x10, 0x10], -- 4
    [0xF0, 0x80, 0xF0, 0x10, 0xF0], -- 5
    [0xF0, 0x80, 0xF0, 0x90, 0xF0], -- 6
    [0xF0, 0x10, 0x20, 0x40, 0x40], -- 7
    [0xF0, 0x90, 0xF0, 0x90, 0xF0], -- 8
    [0xF0, 0x90, 0xF0, 0x10, 0xF0], -- 9
    [0xF0, 0x90, 0xF0, 0x90, 0x90], -- A
    [0xE0, 0x90, 0xE0, 0x90, 0xE0], -- B
    [0xF0, 0x80, 0x80, 0x80, 0xF0], -- C
    [0xE0, 0x90, 0x90, 0x90, 0xE0], -- D
    [0xF0, 0x80, 0xF0, 0x80, 0xF0], -- E
    [0xF0, 0x80, 0xF0, 0x80, 0x80] ] -- F

/-- The default `FONT`: glyph g at 5*g..5*g+4 (R47). -/
def defaultFont : Font := ⟨fontGlyphs.flatten.toArray, by decide⟩

/-- The defaults of R6. -/
def defaultParams : Params :=
  { sysPolicy := .fault
    strictSkip := true
    vfAliasOrder := .flagLast
    shiftSource := .vx
    loadStoreInc := .none
    changedPolicy := .perCycle
    drwVfSample := .beforeClear
    font := defaultFont }

/-- 4096 addressable bytes, 0x000..0xFFF (R5, R40). -/
abbrev memorySize : Nat := 4096

/-- Where the program load puts the first byte of an image (R5, R242). -/
def loadAddress : Nat := 0x200

/-- The program load cap (R5, R242). -/
def loadCap : Nat := 3584

end Sys2Proof
end

