-- ==== Sys2Proof/Syntax.lean ====
section
/-! DEFINITION. The 35 instructions of spec/30_encoding.md R65 (spec/opcode_table.json), operands as
the decoded fields of R61: X and Y as registers, N, KK and NNN as unsigned immediates (R62). -/

namespace Sys2Proof

/-- One constructor per row of the opcode map. -/
inductive Instr where
  /-- CLS, 00E0 (R141). -/
  | cls
  /-- RET, 00EE (R101). -/
  | ret
  /-- SYS nnn, 0nnn with nnn neither 0x0E0 nor 0x0EE (R100). -/
  | sys (nnn : BitVec 12)
  /-- JP nnn, 1nnn (R102). -/
  | jp (nnn : BitVec 12)
  /-- CALL nnn, 2nnn (R103). -/
  | call (nnn : BitVec 12)
  /-- SE Vx, kk, 3xkk (R104). -/
  | seImm (x : Reg) (kk : Byte)
  /-- SNE Vx, kk, 4xkk (R105). -/
  | sneImm (x : Reg) (kk : Byte)
  /-- SE Vx, Vy, 5xy0 (R106). -/
  | seReg (x y : Reg)
  /-- LD Vx, kk, 6xkk (R122). -/
  | ldImm (x : Reg) (kk : Byte)
  /-- ADD Vx, kk, 7xkk (R123). -/
  | addImm (x : Reg) (kk : Byte)
  /-- LD Vx, Vy, 8xy0 (R124). -/
  | ldReg (x y : Reg)
  /-- OR Vx, Vy, 8xy1 (R125). -/
  | orReg (x y : Reg)
  /-- AND Vx, Vy, 8xy2 (R126). -/
  | andReg (x y : Reg)
  /-- XOR Vx, Vy, 8xy3 (R127). -/
  | xorReg (x y : Reg)
  /-- ADD Vx, Vy, 8xy4 (R128). -/
  | addReg (x y : Reg)
  /-- SUB Vx, Vy, 8xy5 (R129). -/
  | sub (x y : Reg)
  /-- SHR Vx {, Vy}, 8xy6 (R130); y is kept whatever `SHIFT_SOURCE` is. -/
  | shr (x y : Reg)
  /-- SUBN Vx, Vy, 8xy7 (R131). -/
  | subn (x y : Reg)
  /-- SHL Vx {, Vy}, 8xyE (R132); y is kept whatever `SHIFT_SOURCE` is. -/
  | shl (x y : Reg)
  /-- SNE Vx, Vy, 9xy0 (R107). -/
  | sneReg (x y : Reg)
  /-- LD I, nnn, Annn (R160). -/
  | ldI (nnn : BitVec 12)
  /-- JP V0, nnn, Bnnn (R108). -/
  | jpV0 (nnn : BitVec 12)
  /-- RND Vx, kk, Cxkk (R133). -/
  | rnd (x : Reg) (kk : Byte)
  /-- DRW Vx, Vy, n, Dxyn (R142). -/
  | drw (x y : Reg) (n : BitVec 4)
  /-- SKP Vx, Ex9E (R180). -/
  | skp (x : Reg)
  /-- SKNP Vx, ExA1 (R181). -/
  | sknp (x : Reg)
  /-- LD Vx, DT, Fx07 (R183). -/
  | ldVxDt (x : Reg)
  /-- LD Vx, K, Fx0A (R182). -/
  | ldVxK (x : Reg)
  /-- LD DT, Vx, Fx15 (R184). -/
  | ldDtVx (x : Reg)
  /-- LD ST, Vx, Fx18 (R185). -/
  | ldStVx (x : Reg)
  /-- ADD I, Vx, Fx1E (R161). -/
  | addI (x : Reg)
  /-- LD F, Vx, Fx29 (R162). -/
  | ldF (x : Reg)
  /-- LD B, Vx, Fx33 (R163). -/
  | ldB (x : Reg)
  /-- LD [I], Vx, Fx55 (R164). -/
  | storeRegs (x : Reg)
  /-- LD Vx, [I], Fx65 (R165). -/
  | loadRegs (x : Reg)
  deriving DecidableEq, Repr

end Sys2Proof
end

