-- ==== Sys2Proof/Decode.lean ====
section
/-! DEFINITION. Decoding (spec/30_encoding.md R60..R67): the fields of R61, the two-level dispatch of
R64, the opcode map of R65 as a table of masks, and the encoder. -/

namespace Sys2Proof

/-- Why a byte sequence is no instruction. -/
inductive DecodeError where
  /-- The word matches no row of the opcode map (R66). -/
  | unrecognized (w : Opcode)
  /-- Fewer than two bytes: no instruction word (R60). The machine's fetch never gets here. -/
  | truncated
  deriving DecidableEq, Repr

/-- `op`, the family selector `opcode[15:12]` (R61). -/
def fieldOp (w : Opcode) : BitVec 4 := w.extractLsb' 12 4

/-- `X`, `opcode[11:8]` (R61). -/
def fieldX (w : Opcode) : Reg := regOfBits (w.extractLsb' 8 4)

/-- `Y`, `opcode[7:4]` (R61). -/
def fieldY (w : Opcode) : Reg := regOfBits (w.extractLsb' 4 4)

/-- `N`, `opcode[3:0]` (R61). -/
def fieldN (w : Opcode) : BitVec 4 := w.extractLsb' 0 4

/-- `KK`, `opcode[7:0]` (R61). -/
def fieldKK (w : Opcode) : Byte := w.extractLsb' 0 8

/-- `NNN`, `opcode[11:0]` (R61). -/
def fieldNNN (w : Opcode) : BitVec 12 := w.extractLsb' 0 12

/-- Family 0: the low 12 bits select CLS, RET or SYS (R64, R65 rows 1 to 3). -/
def decodeFamily0 (w : Opcode) : Except DecodeError Instr :=
  if fieldNNN w = 0x0E0#12 then .ok .cls
  else if fieldNNN w = 0x0EE#12 then .ok .ret
  else .ok (.sys (fieldNNN w))

/-- Families 5 and 9: one operation each, N checked under `STRICT_SKIP_LOW_NIBBLE` (R66) and
not kept (DEDUCED, safe, log 18). -/
def decodeSkipReg (strict : Bool) (w : Opcode) (i : Instr) : Except DecodeError Instr :=
  if strict && fieldN w != 0#4 then .error (.unrecognized w) else .ok i

/-- Family 8: N selects the operation (R64, R65 rows 11 to 19). -/
def decodeFamily8 (w : Opcode) : Except DecodeError Instr :=
  match fieldN w with
  | 0x0#4 => .ok (.ldReg (fieldX w) (fieldY w))
  | 0x1#4 => .ok (.orReg (fieldX w) (fieldY w))
  | 0x2#4 => .ok (.andReg (fieldX w) (fieldY w))
  | 0x3#4 => .ok (.xorReg (fieldX w) (fieldY w))
  | 0x4#4 => .ok (.addReg (fieldX w) (fieldY w))
  | 0x5#4 => .ok (.sub (fieldX w) (fieldY w))
  | 0x6#4 => .ok (.shr (fieldX w) (fieldY w))
  | 0x7#4 => .ok (.subn (fieldX w) (fieldY w))
  | 0xE#4 => .ok (.shl (fieldX w) (fieldY w))
  | _ => .error (.unrecognized w)

/-- Family E: KK selects the operation (R64, R65 rows 25 and 26). -/
def decodeFamilyE (w : Opcode) : Except DecodeError Instr :=
  match fieldKK w with
  | 0x9E#8 => .ok (.skp (fieldX w))
  | 0xA1#8 => .ok (.sknp (fieldX w))
  | _ => .error (.unrecognized w)

/-- Family F: KK selects the operation (R64, R65 rows 27 to 35). -/
def decodeFamilyF (w : Opcode) : Except DecodeError Instr :=
  match fieldKK w with
  | 0x07#8 => .ok (.ldVxDt (fieldX w))
  | 0x0A#8 => .ok (.ldVxK (fieldX w))
  | 0x15#8 => .ok (.ldDtVx (fieldX w))
  | 0x18#8 => .ok (.ldStVx (fieldX w))
  | 0x1E#8 => .ok (.addI (fieldX w))
  | 0x29#8 => .ok (.ldF (fieldX w))
  | 0x33#8 => .ok (.ldB (fieldX w))
  | 0x55#8 => .ok (.storeRegs (fieldX w))
  | 0x65#8 => .ok (.loadRegs (fieldX w))
  | _ => .error (.unrecognized w)

/-- Decode one word: total, and it reads nothing but the word and `STRICT_SKIP_LOW_NIBBLE` (R64,
R67). The patterns of the opcode map are PRESUMED by the spec itself (general knowledge, D1), unsafe,
log 5. -/
def decodeWord (strict : Bool) (w : Opcode) : Except DecodeError Instr :=
  match fieldOp w with
  | 0x0#4 => decodeFamily0 w
  | 0x1#4 => .ok (.jp (fieldNNN w))
  | 0x2#4 => .ok (.call (fieldNNN w))
  | 0x3#4 => .ok (.seImm (fieldX w) (fieldKK w))
  | 0x4#4 => .ok (.sneImm (fieldX w) (fieldKK w))
  | 0x5#4 => decodeSkipReg strict w (.seReg (fieldX w) (fieldY w))
  | 0x6#4 => .ok (.ldImm (fieldX w) (fieldKK w))
  | 0x7#4 => .ok (.addImm (fieldX w) (fieldKK w))
  | 0x8#4 => decodeFamily8 w
  | 0x9#4 => decodeSkipReg strict w (.sneReg (fieldX w) (fieldY w))
  | 0xA#4 => .ok (.ldI (fieldNNN w))
  | 0xB#4 => .ok (.jpV0 (fieldNNN w))
  | 0xC#4 => .ok (.rnd (fieldX w) (fieldKK w))
  | 0xD#4 => .ok (.drw (fieldX w) (fieldY w) (fieldN w))
  | 0xE#4 => decodeFamilyE w
  | _ => decodeFamilyF w -- 0xF, the one family left

/-- The word of two bytes: the byte at the lower address in bits 15..8 (spec/20_memory.md R43). -/
def wordOfBytes (hi lo : Byte) : Opcode := hi ++ lo

/-- The byte of a word that lies at the lower address (R43). -/
def wordHi (w : Opcode) : Byte := w.extractLsb' 8 8

/-- The byte of a word that lies at the higher address (R43). -/
def wordLo (w : Opcode) : Byte := w.extractLsb' 0 8

/-- Decode from a byte sequence: the instruction and the bytes after it; every instruction takes two
bytes (R60). -/
def decodeBytes (strict : Bool) : List Byte → Except DecodeError (Instr × List Byte)
  | hi :: lo :: rest =>
    match decodeWord strict (wordOfBytes hi lo) with
    | .ok i => .ok (i, rest)
    | .error e => .error e
  | _ => .error .truncated

/-- The instruction the decoder reads from a word numbered as spec/opcode_table.json numbers it: one
16-bit word, laid out big-endian (R43); the bits above `nbits` are 0. It uses the default
`STRICT_SKIP_LOW_NIBBLE`. -/
def decodeTableWord (nbits w : Nat) : Option Instr :=
  let word : Opcode := BitVec.ofNat 16 (w % 2 ^ nbits)
  match decodeBytes defaultParams.strictSkip [wordHi word, wordLo word] with
  | .ok (i, _) => some i
  | .error _ => none

/-- A word of format `F_NNN` (R63). -/
def wordNNN (op : BitVec 4) (nnn : BitVec 12) : Opcode := op ++ nnn

/-- A word of format `F_XKK` or `F_XSS` (R63). -/
def wordXKK (op : BitVec 4) (x : Reg) (kk : Byte) : Opcode := op ++ (regBits x ++ kk)

/-- A word of format `F_XYS` or `F_XYN` (R63). -/
def wordXYN (op : BitVec 4) (x y : Reg) (n : BitVec 4) : Opcode :=
  op ++ (regBits x ++ (regBits y ++ n))

/-- The word of an instruction: the pattern of its row of R65 with its operands in the fields of R61
(R68). -/
def encode : Instr → Opcode
  | .cls => 0x00E0#16
  | .ret => 0x00EE#16
  | .sys nnn => wordNNN 0x0 nnn
  | .jp nnn => wordNNN 0x1 nnn
  | .call nnn => wordNNN 0x2 nnn
  | .seImm x kk => wordXKK 0x3 x kk
  | .sneImm x kk => wordXKK 0x4 x kk
  | .seReg x y => wordXYN 0x5 x y 0x0
  | .ldImm x kk => wordXKK 0x6 x kk
  | .addImm x kk => wordXKK 0x7 x kk
  | .ldReg x y => wordXYN 0x8 x y 0x0
  | .orReg x y => wordXYN 0x8 x y 0x1
  | .andReg x y => wordXYN 0x8 x y 0x2
  | .xorReg x y => wordXYN 0x8 x y 0x3
  | .addReg x y => wordXYN 0x8 x y 0x4
  | .sub x y => wordXYN 0x8 x y 0x5
  | .shr x y => wordXYN 0x8 x y 0x6
  | .subn x y => wordXYN 0x8 x y 0x7
  | .shl x y => wordXYN 0x8 x y 0xE
  | .sneReg x y => wordXYN 0x9 x y 0x0
  | .ldI nnn => wordNNN 0xA nnn
  | .jpV0 nnn => wordNNN 0xB nnn
  | .rnd x kk => wordXKK 0xC x kk
  | .drw x y n => wordXYN 0xD x y n
  | .skp x => wordXKK 0xE x 0x9E
  | .sknp x => wordXKK 0xE x 0xA1
  | .ldVxDt x => wordXKK 0xF x 0x07
  | .ldVxK x => wordXKK 0xF x 0x0A
  | .ldDtVx x => wordXKK 0xF x 0x15
  | .ldStVx x => wordXKK 0xF x 0x18
  | .addI x => wordXKK 0xF x 0x1E
  | .ldF x => wordXKK 0xF x 0x29
  | .ldB x => wordXKK 0xF x 0x33
  | .storeRegs x => wordXKK 0xF x 0x55
  | .loadRegs x => wordXKK 0xF x 0x65

/-- The two bytes of an instruction as memory holds them, lowest address first (R43). -/
def encodeBytes (i : Instr) : List Byte := [wordHi (encode i), wordLo (encode i)]

/-- One row of the opcode map R65: a word belongs to the row when its masked bits are `value`. -/
structure OpRow where
  mask : Opcode
  value : Opcode
  /-- The instruction of the row, its operands taken from the word. -/
  build : Opcode → Instr

/-- The word belongs to the row (R65). -/
def OpRow.accepts (r : OpRow) (w : Opcode) : Bool := w &&& r.mask == r.value

/-- Rows 1 to 10 of R65; rows 8 and 20 use mask 0xF000 when `STRICT_SKIP_LOW_NIBBLE` is false. -/
def opcodeRowsA (strict : Bool) : List OpRow :=
  [ ⟨0xFFFF, 0x00E0, fun _ => .cls⟩,
    ⟨0xFFFF, 0x00EE, fun _ => .ret⟩,
    ⟨0xF000, 0x0000, fun w => .sys (fieldNNN w)⟩,
    ⟨0xF000, 0x1000, fun w => .jp (fieldNNN w)⟩,
    ⟨0xF000, 0x2000, fun w => .call (fieldNNN w)⟩,
    ⟨0xF000, 0x3000, fun w => .seImm (fieldX w) (fieldKK w)⟩,
    ⟨0xF000, 0x4000, fun w => .sneImm (fieldX w) (fieldKK w)⟩,
    ⟨if strict then 0xF00F else 0xF000, 0x5000, fun w => .seReg (fieldX w) (fieldY w)⟩,
    ⟨0xF000, 0x6000, fun w => .ldImm (fieldX w) (fieldKK w)⟩,
    ⟨0xF000, 0x7000, fun w => .addImm (fieldX w) (fieldKK w)⟩ ]

/-- Rows 11 to 24 of R65. -/
def opcodeRowsB (strict : Bool) : List OpRow :=
  [ ⟨0xF00F, 0x8000, fun w => .ldReg (fieldX w) (fieldY w)⟩,
    ⟨0xF00F, 0x8001, fun w => .orReg (fieldX w) (fieldY w)⟩,
    ⟨0xF00F, 0x8002, fun w => .andReg (fieldX w) (fieldY w)⟩,
    ⟨0xF00F, 0x8003, fun w => .xorReg (fieldX w) (fieldY w)⟩,
    ⟨0xF00F, 0x8004, fun w => .addReg (fieldX w) (fieldY w)⟩,
    ⟨0xF00F, 0x8005, fun w => .sub (fieldX w) (fieldY w)⟩,
    ⟨0xF00F, 0x8006, fun w => .shr (fieldX w) (fieldY w)⟩,
    ⟨0xF00F, 0x8007, fun w => .subn (fieldX w) (fieldY w)⟩,
    ⟨0xF00F, 0x800E, fun w => .shl (fieldX w) (fieldY w)⟩,
    ⟨if strict then 0xF00F else 0xF000, 0x9000, fun w => .sneReg (fieldX w) (fieldY w)⟩,
    ⟨0xF000, 0xA000, fun w => .ldI (fieldNNN w)⟩,
    ⟨0xF000, 0xB000, fun w => .jpV0 (fieldNNN w)⟩,
    ⟨0xF000, 0xC000, fun w => .rnd (fieldX w) (fieldKK w)⟩,
    ⟨0xF000, 0xD000, fun w => .drw (fieldX w) (fieldY w) (fieldN w)⟩ ]

/-- Rows 25 to 35 of R65. -/
def opcodeRowsC : List OpRow :=
  [ ⟨0xF0FF, 0xE09E, fun w => .skp (fieldX w)⟩,
    ⟨0xF0FF, 0xE0A1, fun w => .sknp (fieldX w)⟩,
    ⟨0xF0FF, 0xF007, fun w => .ldVxDt (fieldX w)⟩,
    ⟨0xF0FF, 0xF00A, fun w => .ldVxK (fieldX w)⟩,
    ⟨0xF0FF, 0xF015, fun w => .ldDtVx (fieldX w)⟩,
    ⟨0xF0FF, 0xF018, fun w => .ldStVx (fieldX w)⟩,
    ⟨0xF0FF, 0xF01E, fun w => .addI (fieldX w)⟩,
    ⟨0xF0FF, 0xF029, fun w => .ldF (fieldX w)⟩,
    ⟨0xF0FF, 0xF033, fun w => .ldB (fieldX w)⟩,
    ⟨0xF0FF, 0xF055, fun w => .storeRegs (fieldX w)⟩,
    ⟨0xF0FF, 0xF065, fun w => .loadRegs (fieldX w)⟩ ]

/-- The opcode map of R65 in its matching order (rows 1 and 2 before row 3). -/
def opcodeRows (strict : Bool) : List OpRow :=
  opcodeRowsA strict ++ opcodeRowsB strict ++ opcodeRowsC

/-- Decoding read off the opcode map: the first row that accepts the word. A second reading of R65,
against which the two-level dispatch of `decodeWord` is stated. -/
def decodeByRows (strict : Bool) (w : Opcode) : Except DecodeError Instr :=
  match (opcodeRows strict).find? (fun r => r.accepts w) with
  | some r => .ok (r.build w)
  | none => .error (.unrecognized w)

end Sys2Proof
end

