-- ==== Sys2Proof/Machine/State.lean ====
section
/-! DEFINITION. The state of the core (spec/10_state.md R20..R31, spec/20_memory.md R40), the reasons a
step can stop, the state after initialization (spec/70_reset_and_hazards.md R240), and the free values a
faulting cycle leaves (spec/60_exceptions.md R202). -/

namespace Sys2Proof.Machine

/-- Memory as the cells that differ from the reset contents, addresses strictly rising (`Memory.wf`).
An address that is not listed reads as `Memory.initial` (R41; DESIGN CHOICE, safe, log 20). -/
abbrev Memory := List Host.Cell

/-- The pixel grid, 32 rows of 64 pixels: `grid[y][x]` (R26). -/
abbrev Grid := Vector (Vector Bool 64) 32

/-- The five faults with the information they record (R200). -/
inductive FaultCause where
  /-- Code 1: the word matches no row of R65, or is SYS under `SYS_POLICY = fault`. -/
  | unrecognizedInstruction (opcode : Opcode)
  /-- Code 2: an access at an address above 0xFFF; the address is an unbounded natural (R42). -/
  | memoryOutOfRange (addr : Nat)
  /-- Code 3: CALL with SP = 16. -/
  | stackOverflow
  /-- Code 4: RET with SP = 0. -/
  | stackUnderflow
  /-- Code 5: SKP or SKNP with V[X] above 15. -/
  | keyIndexOutOfRange (k : Byte)
  deriving DecidableEq, Repr

/-- The fault record: code with information, and `fpc`, the address the faulting cycle fetched from
(R30, R200). -/
structure FaultRecord where
  cause : FaultCause
  fpc : Addr
  deriving DecidableEq, Repr

/-- The whole state of the core (R31), and after it three fields of the model: `params`, the parameters
of R6 that no step writes (log 1), and `inputs` and `cycle`, which supply the arguments of the coming
cycles (log 2). -/
structure State where
  /-- V0..VF (R20). -/
  v : Vector Byte 16
  /-- The index register I (R22). -/
  i : Addr
  /-- The program counter (R23). -/
  pc : Addr
  /-- SP, the number of stack entries in use, 0..16 (R24; DEDUCED from 90_conflicts.md C3, safe, log 12). -/
  sp : Fin 17
  /-- stack[0..15] (R24). -/
  stack : Vector Addr 16
  /-- The delay timer DT (R25). -/
  dt : Byte
  /-- The sound timer ST (R25); what it drives outside the core is not modelled (safe, log 16). -/
  st : Byte
  /-- The pixel grid (R26). -/
  grid : Grid
  /-- The display-changed flag (R27). -/
  changed : Bool
  /-- The fault record; the core is halted when there is one (R30, R70). -/
  fault : Option FaultRecord
  /-- The 4096 bytes of memory (R40). -/
  mem : Memory
  /-- MODEL (log 1): the parameters of this machine (R6). -/
  params : Params
  /-- MODEL (log 2): the arguments of the coming cycles, the next one first (R69). -/
  inputs : List CycleInput
  /-- MODEL (log 2): the index of the free values a cycle takes where `inputs` is empty. -/
  cycle : Nat
  deriving DecidableEq, Repr

/-- Why a step is not a next state. -/
inductive Fault where
  /-- Raised by `step` on a halted core, and by nothing else: "no cycle has a step" (R203). The record
  that halted it is given. DEDUCED, safe: the spec gives a halted core no transition (log 11). -/
  | halted (record : FaultRecord)
  deriving DecidableEq, Repr

/-- Why an instruction has no meaning in the model. -/
inductive Refusal where
  /-- Raised by an arm of `exec` whose instruction is not modelled; no arm does so. Safe. -/
  | notModelled (mnemonic : String)
  deriving DecidableEq, Repr

/-- The state after initialization of a machine with these parameters (R240). The spec states every
value; `inputs` and `cycle` are the model's own (DESIGN CHOICE, log 19). -/
def State.initialize (p : Params) : State :=
  { v := .replicate 16 0
    i := 0
    pc := 0x200
    sp := 0
    stack := .replicate 16 0
    dt := 0
    st := 0
    grid := .replicate 32 (.replicate 64 false)
    changed := false
    fault := none
    mem := []
    params := p
    inputs := []
    cycle := 0 }

/-- The machine right after reset, every parameter at its default (R6, R240). -/
def State.reset : State := State.initialize defaultParams

/-- What R202 leaves unspecified after a fault: every piece of state but the fault record. -/
structure Leftover where
  v : Vector Byte 16
  i : Addr
  pc : Addr
  sp : Fin 17
  stack : Vector Addr 16
  dt : Byte
  st : Byte
  grid : Grid
  changed : Bool
  /-- The bytes at 0x000..0xFFF. -/
  bytes : Vector Byte 4096
  deriving Inhabited

end Sys2Proof.Machine

namespace Sys2Proof

/-- FREE VALUE (log 3): what a cycle that faults in the given state leaves behind. R202: "A model must
admit any value there". It has no body, so nothing can be proved of the values. -/
opaque Config.leftByFault : Machine.State → Machine.Leftover

end Sys2Proof
end

