-- ==== Sys2Proof/Machine/Grid.lean ====
section
/-! DEFINITION. The pixel-grid controller (spec/42_display.md R140..R142): reading and writing one
pixel, clearing the grid, and drawing a sprite pixel by pixel. -/

namespace Sys2Proof.Machine

/-- `grid[y][x]` (R26). -/
def Grid.pixel (g : Grid) (y : Fin 32) (x : Fin 64) : Bool := (g.get y).get x

/-- `grid[y][x] <- b`. -/
def Grid.setPixel (g : Grid) (y : Fin 32) (x : Fin 64) (b : Bool) : Grid :=
  g.set y.val ((g.get y).set x.val b x.isLt) y.isLt

/-- Every pixel 0 (R141). -/
def Grid.clear : Grid := .replicate 32 (.replicate 64 false)

/-- The column of a sprite pixel, reduced modulo 64 by itself (R142). -/
def wrapColumn (n : Nat) : Fin 64 := Fin.ofNat 64 n

/-- The row of a sprite pixel, reduced modulo 32 by itself (R142). -/
def wrapRow (n : Nat) : Fin 32 := Fin.ofNat 32 n

/-- Pixel offset c of a sprite byte is bit 7 - c: bit 7 is the leftmost (R140). PRESUMED by the spec itself
(general knowledge, D16), unsafe, log 15. -/
def spriteBit (b : Byte) (c : Nat) : Bool := b.getLsbD (7 - c)

/-- A grid being drawn on: the grid, and whether a set pixel has been turned off so far. -/
structure Canvas where
  grid : Grid
  hit : Bool
  deriving DecidableEq, Repr

/-- Toggle one pixel and note a collision (the inner body of R142). -/
def Canvas.toggle (d : Canvas) (y : Fin 32) (x : Fin 64) : Canvas :=
  { grid := d.grid.setPixel y x (!d.grid.pixel y x)
    hit := d.hit || d.grid.pixel y x }

/-- One column of one sprite row (R142). -/
def Canvas.drawColumn (xs y : Nat) (b : Byte) (d : Canvas) (c : Nat) : Canvas :=
  if spriteBit b c then d.toggle (wrapRow y) (wrapColumn (xs + c)) else d

/-- One sprite row, columns 0..7 in order (R142). -/
def Canvas.drawRow (xs y : Nat) (b : Byte) (d : Canvas) : Canvas :=
  (List.range 8).foldl (Canvas.drawColumn xs y b) d

/-- The sprite rows from row y downwards (R142). -/
def Canvas.drawRows (xs y : Nat) (bytes : List Byte) (d : Canvas) : Canvas :=
  match bytes with
  | [] => d
  | b :: rest => Canvas.drawRows xs (y + 1) rest (d.drawRow xs y b)

/-- Draw the sprite of these rows at (xs, ys); no collision yet (R142). -/
def Grid.drawSprite (g : Grid) (xs ys : Nat) (bytes : List Byte) : Canvas :=
  Canvas.drawRows xs ys bytes { grid := g, hit := false }

end Sys2Proof.Machine
end

