-- ==== Sys2Proof/Machine/Memory.lean ====
section
/-! DEFINITION. Memory as a canonical list of cells (spec/20_memory.md R40, R41): reading, writing, and
the predicate that says the form holds. The address check of R42 is in Ops. -/

namespace Sys2Proof.Machine

/-- The reset contents: the font at 0x000..0x04F, zero elsewhere (R41, R46). -/
def Memory.initial (font : Font) (a : Nat) : Byte := if h : a < 80 then font[a] else 0

/-- The byte at an address: the listed one, else the reset contents. -/
def Memory.read (m : Memory) (font : Font) (a : Nat) : Byte :=
  match m with
  | [] => Memory.initial font a
  | (k, b) :: rest => if a = k then b else Memory.read rest font a

/-- Put one cell in front of a list, unless it holds what an unlisted address reads as. -/
def Memory.cons (font : Font) (a : Nat) (b : Byte) (rest : Memory) : Memory :=
  if b = Memory.initial font a then rest else (a, b) :: rest

/-- Write one byte, keeping the canonical form. -/
def Memory.write (m : Memory) (font : Font) (a : Nat) (b : Byte) : Memory :=
  match m with
  | [] => Memory.cons font a b []
  | (k, c) :: rest =>
    if a < k then Memory.cons font a b ((k, c) :: rest)
    else if a = k then Memory.cons font a b rest
    else (k, c) :: Memory.write rest font a b

/-- The canonical list of n given bytes from address a on. -/
def Memory.cellsFrom (font : Font) (byte : Nat → Byte) (a n : Nat) : Memory :=
  match n with
  | 0 => []
  | k + 1 => Memory.cons font a (byte a) (Memory.cellsFrom font byte (a + 1) k)

/-- The canonical list of 4096 given bytes. -/
def Memory.ofBytes (font : Font) (bytes : Vector Byte 4096) : Memory :=
  Memory.cellsFrom font (fun a => if h : a < 4096 then bytes[a] else 0) 0 4096

/-- The canonical form: addresses strictly rising and below 4096, no cell equal to the reset contents
of its address. -/
abbrev Memory.wf (font : Font) (m : Memory) : Prop :=
  m.Pairwise (fun c d => c.1 < d.1) ∧
    ∀ c ∈ m, c.1 < memorySize ∧ c.2 ≠ Memory.initial font c.1

end Sys2Proof.Machine
end

