-- ==== Sys2Proof/Machine/Ops.lean ====
section
/-! DEFINITION. The named operations every meaning uses: registers, checked memory accesses
(spec/20_memory.md R42), the call stack (spec/10_state.md R24), the arguments of the cycle
(spec/30_encoding.md R71, R72), and raising a fault (spec/60_exceptions.md R202). There is no return
from a fault (R203), so no operation undoes one. -/

namespace Sys2Proof.Machine

/-! ### Registers -/

/-- Read V[r] (R20). -/
def State.readV (s : State) (r : Reg) : Byte := s.v.get r

/-- V[r] <- b (R20). -/
def State.writeV (s : State) (r : Reg) (b : Byte) : State :=
  { s with v := s.v.set r.val b r.isLt }

/-- Write consecutive registers starting at number r, one per byte; bytes past VF are dropped (no
instruction supplies any). -/
def State.writeVsFrom (s : State) (r : Nat) (bytes : List Byte) : State :=
  match bytes with
  | [] => s
  | b :: rest =>
    if h : r < 16 then (s.writeV ⟨r, h⟩ b).writeVsFrom (r + 1) rest else s

/-- V0..Vx in order, x + 1 bytes (R164). -/
def State.regsUpTo (s : State) (x : Reg) : List Byte := s.v.toList.take (x.val + 1)

/-! ### Faults -/

/-- The code of a fault (R200). -/
def FaultCause.code (c : FaultCause) : Nat :=
  match c with
  | .unrecognizedInstruction _ => 1
  | .memoryOutOfRange _ => 2
  | .stackOverflow => 3
  | .stackUnderflow => 4
  | .keyIndexOutOfRange _ => 5

/-- FAULT ENTRY (R202): the record is set, and every other value of the core is whatever the faulting
cycle left, a free value. Only the model's own fields stay. DESIGN CHOICE, safe, log 3. -/
def State.takeFault (s : State) (fpc : Addr) (c : FaultCause) : State :=
  let left := Config.leftByFault s
  { s with
    v := left.v
    i := left.i
    pc := left.pc
    sp := left.sp
    stack := left.stack
    dt := left.dt
    st := left.st
    grid := left.grid
    changed := left.changed
    mem := Memory.ofBytes s.params.font left.bytes
    fault := some { cause := c, fpc := fpc } }

/-- `raise F(info)` while an instruction executes: pc then holds fpc + 2 (R23), so fpc is pc - 2
(DEDUCED, safe, log 4). -/
def State.raise (s : State) (c : FaultCause) : State := s.takeFault (s.pc - 2) c

/-- End an instruction: with the state it computed, or with the fault it raised. -/
def State.finish (s : State) (r : Except FaultCause State) : Host.Outcome State Fault Refusal :=
  match r with
  | .ok t => .next t
  | .error c => .next (s.raise c)

/-! ### Memory -/

/-- The byte at an address, without a check; for claims and for the host's placing of bytes. -/
def State.peek (s : State) (a : Nat) : Byte := s.mem.read s.params.font a

/-- Put a byte at an address, without a check. -/
def State.poke (s : State) (a : Nat) (b : Byte) : State :=
  { s with mem := s.mem.write s.params.font a b }

/-- `MemRead(addr, 1)` (R42). -/
def State.readMem (s : State) (a : Nat) : Except FaultCause Byte :=
  if a > 0xFFF then .error (.memoryOutOfRange a) else .ok (s.peek a)

/-- `MemWrite(addr, 1, b)` (R42). -/
def State.writeMem (s : State) (a : Nat) (b : Byte) : Except FaultCause State :=
  if a > 0xFFF then .error (.memoryOutOfRange a) else .ok (s.poke a b)

/-- Read n bytes at a, a + 1, ..., in rising order; the first address above 0xFFF faults (R45). -/
def State.loadBytes (s : State) (a n : Nat) : Except FaultCause (List Byte) :=
  match n with
  | 0 => .ok []
  | k + 1 =>
    match s.readMem a with
    | .error c => .error c
    | .ok b =>
      match s.loadBytes (a + 1) k with
      | .error c => .error c
      | .ok rest => .ok (b :: rest)

/-- Write the bytes at a, a + 1, ..., in rising order; the first address above 0xFFF faults (R45). -/
def State.storeBytes (s : State) (a : Nat) (bytes : List Byte) : Except FaultCause State :=
  match bytes with
  | [] => .ok s
  | b :: rest =>
    match s.writeMem a b with
    | .error c => .error c
    | .ok t => t.storeBytes (a + 1) rest

/-- Place bytes at a, a + 1, ... from outside the core; "addresses above 0xFFF are never written"
(R242). -/
def State.placeBytes (s : State) (a : Nat) (bytes : List Byte) : State :=
  match bytes with
  | [] => s
  | b :: rest => (if a > 0xFFF then s else s.poke a b).placeBytes (a + 1) rest

/-! ### Call stack -/

/-- `stack[SP] <- a; SP <- SP + 1`, or StackOverflow when SP = 16 (R24, R103). -/
def State.push (s : State) (a : Addr) : Except FaultCause State :=
  if h : s.sp.val < 16 then
    .ok { s with stack := s.stack.set s.sp.val a h, sp := ⟨s.sp.val + 1, by omega⟩ }
  else .error .stackOverflow

/-- `SP <- SP - 1; pc <- stack[SP]`, or StackUnderflow when SP = 0 (R24, R101). The entry keeps its
value. -/
def State.popPc (s : State) : Except FaultCause State :=
  if s.sp.val = 0 then .error .stackUnderflow
  else .ok { s with
    sp := ⟨s.sp.val - 1, by omega⟩
    pc := s.stack[s.sp.val - 1]'(by omega) }

/-! ### The arguments of the cycle -/

/-- The arguments of the current cycle: the first fixed ones, else free values (R69, log 2). -/
def State.cycleInput (s : State) : CycleInput :=
  match s.inputs with
  | a :: _ => a
  | [] => { keys := Config.freeKeys s.cycle, draw := Config.freeDraw s.cycle }

/-- `key[k]` of the current cycle (R28, R72). -/
def State.key (s : State) (k : Fin 16) : Bool := s.cycleInput.keys.get k

/-- `rand8()`: the draw of the current cycle (R71). -/
def State.rand8 (s : State) : Byte := s.cycleInput.draw

/-- The lowest pressed key, if any is pressed (R182, decision D10 of the spec). -/
def State.lowestKey (s : State) : Option (Fin 16) := (List.finRange 16).find? fun k => s.key k

end Sys2Proof.Machine
end

