-- ==== Sys2Proof/Machine/Operands.lean ====
section
/-! DEFINITION. Operand forms (spec/30_encoding.md R62, spec/43_index_memory.md R166): immediates,
effective addresses, the source of a shift, the coordinates of a sprite, and pc targets. -/

namespace Sys2Proof.Machine

/-- `zext_16(NNN)` (R62). -/
def zextNNN (nnn : BitVec 12) : Addr := nnn.setWidth 16

/-- `V[0] + NNN`, at most 0x10FE, not reduced to 12 bits (R108). -/
def jumpOffset (v0 : Byte) (nnn : BitVec 12) : Addr := BitVec.ofNat 16 (v0.toNat + nnn.toNat)

/-- The base of the addressing mode `I + k`: I as an unbounded natural (R166). -/
def State.base (s : State) : Nat := s.i.toNat

/-- The register a shift reads (R130, R132, `SHIFT_SOURCE`). -/
def State.shiftOperand (s : State) (x y : Reg) : Byte :=
  match s.params.shiftSource with
  | .vx => s.readV x
  | .vy => s.readV y

/-- DRW has cleared VF (R142). -/
def State.clearVF (s : State) : State := s.writeV regVF 0

/-- The coordinate DRW takes from a register, under `DRW_VF_SAMPLE` (R142). -/
def State.drwCoordinate (s : State) (r : Reg) : Nat :=
  match s.params.drwVfSample with
  | .beforeClear => (s.readV r).toNat
  | .afterClear => (s.clearVF.readV r).toNat

/-- pc <- target (R109). -/
def State.jumpTo (s : State) (target : Addr) : State := { s with pc := target }

/-- Advance the already advanced pc by 2 more when the condition holds (R109), modulo 0x10000
(DESIGN CHOICE, safe, log 13). -/
def State.skipIf (s : State) (c : Bool) : State := if c then s.jumpTo (s.pc + 2) else s

/-- I after a block transfer of V0..Vx that began at I (R164, R165, `LOADSTORE_I_INCREMENT`). -/
def State.afterBlock (s : State) (x : Reg) : State :=
  match s.params.loadStoreInc with
  | .none => s
  | .xPlusOne => { s with i := BitVec.ofNat 16 (s.i.toNat + x.val + 1) }

/-- The three decimal digits of a byte, hundreds first (R163). -/
def bcdDigits (b : Byte) : List Byte :=
  [ BitVec.ofNat 8 (b.toNat / 100),
    BitVec.ofNat 8 (b.toNat / 10 % 10),
    BitVec.ofNat 8 (b.toNat % 10) ]

/-- The address of the font glyph of a byte: 5 times the whole value, no mask (R162). -/
def glyphAddress (b : Byte) : Addr := BitVec.ofNat 16 (5 * b.toNat)

end Sys2Proof.Machine
end

