-- ==== Sys2Proof/Machine/Cycle.lean ====
section
/-! DEFINITION. What a cycle does around its instruction (spec/30_encoding.md R69): the start, the
fetch, the advance of pc, the timer tick (spec/60_exceptions.md R207) and the end. -/

namespace Sys2Proof.Machine

/-- The start of a cycle: `changed` is cleared under `per_cycle` (R27, R69). -/
def State.startCycle (s : State) : State :=
  match s.params.changedPolicy with
  | .perCycle => { s with changed := false }
  | .sticky => s

/-- The fetch: the bytes at pc and pc + 1, big-endian, no alignment check (R43, R44); either read may
fault (R42). -/
def State.fetch (s : State) : Except FaultCause Opcode :=
  match s.loadBytes s.pc.toNat 2 with
  | .error c => .error c
  | .ok [hi, lo] => .ok (wordOfBytes hi lo)
  | .ok _ => .ok 0 -- never: a load of two bytes gives two

/-- `pc <- pc + 2`, before the instruction executes (R69), modulo 0x10000 (DESIGN CHOICE, safe,
log 13). -/
def State.advancePc (s : State) : State := { s with pc := s.pc + 2 }

/-- One down-counter for one cycle: never below zero (R207). -/
def tickDown (t : Byte) : Byte := if t = 0 then 0 else t - 1

/-- The timer tick (R207). -/
def State.tick (s : State) : State := { s with dt := tickDown s.dt, st := tickDown s.st }

/-- The arguments of this cycle are spent (log 2). -/
def State.nextInput (s : State) : State :=
  { s with inputs := s.inputs.tail, cycle := s.cycle + 1 }

/-- The end of a cycle: the timers tick when it raised no fault (R69, R202, R207). -/
def State.endCycle (s : State) : State :=
  if s.fault = none then s.tick.nextInput else s.nextInput

end Sys2Proof.Machine
end

