-- ==== Sys2Proof/Machine/Flags.lean ====
section
/-! DEFINITION. Every flag computation (spec/41_register_alu.md R120, R121, R128..R132,
spec/43_index_memory.md R161, spec/42_display.md R142), each on the values read at the start. -/

namespace Sys2Proof.Machine

/-- `[c]`: 1 if the condition holds, else 0 (spec/00_scope.md R9). -/
def flagByte (c : Bool) : Byte := if c then 1 else 0

/-- `[a + b > 255]`: the carry of ADD Vx, Vy (R128). -/
def carryFlag (a b : Byte) : Byte := flagByte (decide (a.toNat + b.toNat > 255))

/-- `[a >= b]`: no borrow in a - b (R129, R131). -/
def noBorrowFlag (a b : Byte) : Byte := flagByte (decide (a.toNat ≥ b.toNat))

/-- Bit 0 before a shift right (R130). -/
def shiftRightFlag (a : Byte) : Byte := flagByte (a.getLsbD 0)

/-- Bit 7 before a shift left (R132). -/
def shiftLeftFlag (a : Byte) : Byte := flagByte (a.getLsbD 7)

/-- `[I + V[X] > 0xFFF]`, on the unreduced sum (R161). -/
def indexFlag (i : Addr) (a : Byte) : Byte := flagByte (decide (i.toNat + a.toNat > 0xFFF))

/-- `write_result_and_flag(result, flag)` (R121, `VF_ALIAS_ORDER`). -/
def State.writeResultAndFlag (s : State) (x : Reg) (result flag : Byte) : State :=
  match s.params.vfAliasOrder with
  | .flagLast => (s.writeV x result).writeV regVF flag
  | .resultLast => (s.writeV regVF flag).writeV x result

end Sys2Proof.Machine
end

