-- ==== Sys2Proof/Machine/Alu.lean ====
section
/-! DEFINITION. Registers and arithmetic: LD and ADD with an immediate, the nine operations of family 8
and RND (spec/41_register_alu.md). Operands are read before any write (R121). -/

namespace Sys2Proof.Machine

/-- R122. -/
def execLdImm (x : Reg) (kk : Byte) (s : State) : Host.Outcome State Fault Refusal :=
  s.finish (.ok (s.writeV x kk))

/-- R123: wraps modulo 256, no flag. -/
def execAddImm (x : Reg) (kk : Byte) (s : State) : Host.Outcome State Fault Refusal :=
  s.finish (.ok (s.writeV x (s.readV x + kk)))

/-- R124. -/
def execLdReg (x y : Reg) (s : State) : Host.Outcome State Fault Refusal :=
  s.finish (.ok (s.writeV x (s.readV y)))

/-- R125: no flag. -/
def execOrReg (x y : Reg) (s : State) : Host.Outcome State Fault Refusal :=
  s.finish (.ok (s.writeV x (s.readV x ||| s.readV y)))

/-- R126: no flag. -/
def execAndReg (x y : Reg) (s : State) : Host.Outcome State Fault Refusal :=
  s.finish (.ok (s.writeV x (s.readV x &&& s.readV y)))

/-- R127: no flag. -/
def execXorReg (x y : Reg) (s : State) : Host.Outcome State Fault Refusal :=
  s.finish (.ok (s.writeV x (s.readV x ^^^ s.readV y)))

/-- R128. -/
def execAddReg (x y : Reg) (s : State) : Host.Outcome State Fault Refusal :=
  s.finish (.ok (s.writeResultAndFlag x (s.readV x + s.readV y)
    (carryFlag (s.readV x) (s.readV y))))

/-- R129. -/
def execSub (x y : Reg) (s : State) : Host.Outcome State Fault Refusal :=
  s.finish (.ok (s.writeResultAndFlag x (s.readV x - s.readV y)
    (noBorrowFlag (s.readV x) (s.readV y))))

/-- R130. -/
def execShr (x y : Reg) (s : State) : Host.Outcome State Fault Refusal :=
  s.finish (.ok (s.writeResultAndFlag x (s.shiftOperand x y >>> 1)
    (shiftRightFlag (s.shiftOperand x y))))

/-- R131: V[Y] minus V[X]. -/
def execSubn (x y : Reg) (s : State) : Host.Outcome State Fault Refusal :=
  s.finish (.ok (s.writeResultAndFlag x (s.readV y - s.readV x)
    (noBorrowFlag (s.readV y) (s.readV x))))

/-- R132. -/
def execShl (x y : Reg) (s : State) : Host.Outcome State Fault Refusal :=
  s.finish (.ok (s.writeResultAndFlag x (s.shiftOperand x y <<< 1)
    (shiftLeftFlag (s.shiftOperand x y))))

/-- R133: the draw of this cycle, masked. -/
def execRnd (x : Reg) (kk : Byte) (s : State) : Host.Outcome State Fault Refusal :=
  s.finish (.ok (s.writeV x (s.rand8 &&& kk)))

end Sys2Proof.Machine
end

