-- ==== Sys2Proof/Machine/Control.lean ====
section
/-! DEFINITION. Control flow: SYS, RET, JP, CALL, the four comparing skips and JP V0, nnn
(spec/40_control_flow.md). The state a meaning gets has pc already advanced (R69). -/

namespace Sys2Proof.Machine

/-- R100: under `SYS_POLICY = fault` an unrecognized instruction whose opcode is this word, under
`nop` no effect. -/
def execSys (nnn : BitVec 12) (s : State) : Host.Outcome State Fault Refusal :=
  match s.params.sysPolicy with
  | .fault => s.finish (.error (.unrecognizedInstruction (encode (.sys nnn))))
  | .nop => s.finish (.ok s)

/-- R101. -/
def execRet (s : State) : Host.Outcome State Fault Refusal := s.finish s.popPc

/-- R102. -/
def execJp (nnn : BitVec 12) (s : State) : Host.Outcome State Fault Refusal :=
  s.finish (.ok (s.jumpTo (zextNNN nnn)))

/-- R103: the pushed value is the advanced pc. -/
def execCall (nnn : BitVec 12) (s : State) : Host.Outcome State Fault Refusal :=
  match s.push s.pc with
  | .error c => s.finish (.error c)
  | .ok t => s.finish (.ok (t.jumpTo (zextNNN nnn)))

/-- R104. -/
def execSeImm (x : Reg) (kk : Byte) (s : State) : Host.Outcome State Fault Refusal :=
  s.finish (.ok (s.skipIf (s.readV x == kk)))

/-- R105. -/
def execSneImm (x : Reg) (kk : Byte) (s : State) : Host.Outcome State Fault Refusal :=
  s.finish (.ok (s.skipIf (s.readV x != kk)))

/-- R106. -/
def execSeReg (x y : Reg) (s : State) : Host.Outcome State Fault Refusal :=
  s.finish (.ok (s.skipIf (s.readV x == s.readV y)))

/-- R107. -/
def execSneReg (x y : Reg) (s : State) : Host.Outcome State Fault Refusal :=
  s.finish (.ok (s.skipIf (s.readV x != s.readV y)))

/-- R108: V0 is implicit. -/
def execJpV0 (nnn : BitVec 12) (s : State) : Host.Outcome State Fault Refusal :=
  s.finish (.ok (s.jumpTo (jumpOffset (s.readV regV0) nnn)))

end Sys2Proof.Machine
end

