-- ==== Sys2Proof/Machine/Display.lean ====
section
/-! DEFINITION. CLS and DRW (spec/42_display.md R141, R142). -/

namespace Sys2Proof.Machine

/-- R141. -/
def execCls (s : State) : Host.Outcome State Fault Refusal :=
  s.finish (.ok { s with grid := Grid.clear, changed := true })

/-- The state DRW leaves when its sprite bytes could be read: the grid drawn on, `changed` set, VF the
collision flag and nothing else (R142). -/
def State.drawn (s : State) (x y : Reg) (bytes : List Byte) : State :=
  let d := s.grid.drawSprite (s.drwCoordinate x) (s.drwCoordinate y) bytes
  { s.writeV regVF (flagByte d.hit) with grid := d.grid, changed := true }

/-- R142. The n bytes at I are read in rising order; drawing writes no memory, so reading them before
the first pixel is drawn gives the bytes R142 reads (DEDUCED, safe, log 9). -/
def execDrw (x y : Reg) (n : BitVec 4) (s : State) : Host.Outcome State Fault Refusal :=
  match s.loadBytes s.base n.toNat with
  | .error c => s.finish (.error c)
  | .ok bytes => s.finish (.ok (s.drawn x y bytes))

end Sys2Proof.Machine
end

