-- ==== Sys2Proof/Machine/IndexMemory.lean ====
section
/-! DEFINITION. The index register and memory: LD I, ADD I, LD F, LD B and the block transfers
(spec/43_index_memory.md). -/

namespace Sys2Proof.Machine

/-- R160. -/
def execLdI (nnn : BitVec 12) (s : State) : Host.Outcome State Fault Refusal :=
  s.finish (.ok { s with i := zextNNN nnn })

/-- R161: 16-bit sum, VF from the unreduced sum. -/
def execAddI (x : Reg) (s : State) : Host.Outcome State Fault Refusal :=
  s.finish (.ok ({ s with i := BitVec.ofNat 16 (s.i.toNat + (s.readV x).toNat) }.writeV regVF
    (indexFlag s.i (s.readV x))))

/-- R162. -/
def execLdF (x : Reg) (s : State) : Host.Outcome State Fault Refusal :=
  s.finish (.ok { s with i := glyphAddress (s.readV x) })

/-- R163. -/
def execLdB (x : Reg) (s : State) : Host.Outcome State Fault Refusal :=
  s.finish (s.storeBytes s.base (bcdDigits (s.readV x)))

/-- R164: V0 first. -/
def execStoreRegs (x : Reg) (s : State) : Host.Outcome State Fault Refusal :=
  match s.storeBytes s.base (s.regsUpTo x) with
  | .error c => s.finish (.error c)
  | .ok t => s.finish (.ok (t.afterBlock x))

/-- R165: V0 first; the loads read memory only, so reading all bytes before the first register is
written gives the bytes R165 reads (DEDUCED, safe, log 9). -/
def execLoadRegs (x : Reg) (s : State) : Host.Outcome State Fault Refusal :=
  match s.loadBytes s.base (x.val + 1) with
  | .error c => s.finish (.error c)
  | .ok bytes => s.finish (.ok ((s.writeVsFrom 0 bytes).afterBlock x))

end Sys2Proof.Machine
end

