-- ==== Sys2Proof/Machine/InputTimers.lean ====
section
/-! DEFINITION. Keys and timers: SKP, SKNP, LD Vx, K and the transfers between registers and timers
(spec/44_input_timers.md). -/

namespace Sys2Proof.Machine

/-- `key[V[x]]`, or KeyIndexOutOfRange when V[x] is above 15 (R180, R181). -/
def State.keyOf (s : State) (x : Reg) : Except FaultCause Bool :=
  if h : (s.readV x).toNat < 16 then .ok (s.key ⟨(s.readV x).toNat, h⟩)
  else .error (.keyIndexOutOfRange (s.readV x))

/-- R180. -/
def execSkp (x : Reg) (s : State) : Host.Outcome State Fault Refusal :=
  match s.keyOf x with
  | .error c => s.finish (.error c)
  | .ok pressed => s.finish (.ok (s.skipIf pressed))

/-- R181. -/
def execSknp (x : Reg) (s : State) : Host.Outcome State Fault Refusal :=
  match s.keyOf x with
  | .error c => s.finish (.error c)
  | .ok pressed => s.finish (.ok (s.skipIf (!pressed)))

/-- R183: DT as it stands before the tick of this cycle. -/
def execLdVxDt (x : Reg) (s : State) : Host.Outcome State Fault Refusal :=
  s.finish (.ok (s.writeV x s.dt))

/-- The state LD Vx, K leaves: the lowest pressed key in V[x], or pc rewound by 2 (R182). -/
def State.pollKey (s : State) (x : Reg) : State :=
  match s.lowestKey with
  | some k => s.writeV x (BitVec.ofNat 8 k.val)
  | none => s.jumpTo (s.pc - 2)

/-- R182: a busy-poll; with no key pressed the same instruction runs next cycle. -/
def execLdVxK (x : Reg) (s : State) : Host.Outcome State Fault Refusal :=
  s.finish (.ok (s.pollKey x))

/-- R184: the tick of the same cycle follows. -/
def execLdDtVx (x : Reg) (s : State) : Host.Outcome State Fault Refusal :=
  s.finish (.ok { s with dt := s.readV x })

/-- R185: the tick of the same cycle follows. -/
def execLdStVx (x : Reg) (s : State) : Host.Outcome State Fault Refusal :=
  s.finish (.ok { s with st := s.readV x })

end Sys2Proof.Machine
end

