-- ==== Sys2Proof/Machine/Step.lean ====
section
/-! DEFINITION. One cycle (spec/30_encoding.md R69), and the placing of an instruction where the next
cycle fetches. -/

namespace Sys2Proof.Machine

/-- `cycle(keys, r)` of R69, its arguments taken from the state (log 2). A halted core has no step
(spec/60_exceptions.md R203). A fault ends the cycle at once (R202), in the order of R204: the fetch,
the decode, the instruction's own checks. A faulting cycle is a next state (DEDUCED, safe, log 11). -/
def step (s : State) : Host.Outcome State Fault Refusal :=
  match s.fault with
  | some r => .fault (.halted r)
  | none =>
    let s0 := s.startCycle
    match s0.fetch with
    | .error c => .next (s0.takeFault s0.pc c).endCycle
    | .ok w =>
      let s1 := s0.advancePc
      match decodeWord s1.params.strictSkip w with
      | .error _ => .next (s1.raise (.unrecognizedInstruction w)).endCycle
      | .ok i =>
        match exec i s1 with
        | .next t => .next t.endCycle
        | .fault r => .fault r
        | .refused r => .refused r

/-- The state with one instruction word stored at pc, big-endian, the bits above `nbits` 0. Only memory
changes: a program is loaded from outside the core (R242), and the core then simply fetches at pc
(log 10). -/
def State.withFetchWord (s : State) (nbits w : Nat) : State :=
  let word : Opcode := BitVec.ofNat 16 (w % 2 ^ nbits)
  s.placeBytes s.pc.toNat [wordHi word, wordLo word]

end Sys2Proof.Machine
end

