-- ==== Sys2Proof/Machine/HostOps.lean ====
section
/-! DEFINITION. The host's operations on the core besides the cycle (spec/60_exceptions.md R210):
Initialize is `State.initialize`, and here are Load program (spec/70_reset_and_hazards.md R242, R243),
Read grid, Read changed and Clear changed. None of them is a move of `step` (log 8). -/

namespace Sys2Proof.Machine

/-- Load program: `none` as the source is one that cannot be opened or read, and the result is then
non-loadable; at most 3584 bytes go to 0x200 and on, the rest is discarded (R242). -/
def State.loadProgram (s : State) (source : Option (List Byte)) : Option State :=
  match source with
  | none => none
  | some image => some (s.placeBytes loadAddress (image.take loadCap))

/-- Boot: initialize, then load once, before the first cycle (R243). -/
def State.boot (p : Params) (source : Option (List Byte)) : Option State :=
  (State.initialize p).loadProgram source

/-- Read grid: the 2048 pixels (R210). -/
def State.readGrid (s : State) : Grid := s.grid

/-- What a cycle reports: whether the pixel grid changed (R69, R210). -/
def State.readChanged (s : State) : Bool := s.changed

/-- Clear changed: only under `sticky` (R210). -/
def State.clearChanged (s : State) : State :=
  match s.params.changedPolicy with
  | .sticky => { s with changed := false }
  | .perCycle => s

end Sys2Proof.Machine
end

