-- ==== Sys2Proof/Machine/Run.lean ====
section
/-! DEFINITION. The end of a run (spec/70_reset_and_hazards.md R248). It is a way of speaking about a
sequence of cycles and changes nothing in the core: `step` neither knows END_PC nor stops there. -/

namespace Sys2Proof.Machine

/-- END_PC, the launch parameter of a run: "an address 0x000..0xFFF" (spec/00_scope.md R6, log 14). -/
abbrev EndPc := BitVec 12

/-- This state stands at END_PC and holds no fault record, the condition R248 puts on a boundary. -/
abbrev State.atEnd (endPc : EndPc) (s : State) : Prop :=
  s.pc = endPc.setWidth 16 ∧ s.fault = none

/-- THE FINISHED RUN: the state in which a run from s is finished after exactly n cycles, if it is. The
run is finished "at the first cycle boundary" that stands at END_PC (R248), so no boundary after fewer
cycles may stand there; the state the run starts from is a boundary too (DEDUCED,
unsafe for a run launched at its own END_PC alone, log 14). -/
def State.finishedAfter (endPc : EndPc) (n : Nat) (s : State) : Option State :=
  if s.atEnd endPc then
    match n with
    | 0 => some s
    | _ + 1 => none -- this earlier boundary was the first
  else
    match n with
    | 0 => none
    | k + 1 =>
      match step s with
      | .next t => State.finishedAfter endPc k t
      | .fault _ => none
      | .refused _ => none

end Sys2Proof.Machine
end

