-- ==== Sys2Proof/Safety.lean ====
section
/-! DEFINITION. The terms claims are made in: running states (spec/30_encoding.md R70), the
invariant every step keeps, what an instruction leaves
unchanged (its frame), the registers an instruction may write, and which pixels a sprite covers. -/

namespace Sys2Proof.Machine

/-- The core is running: it holds no fault record (R70). -/
abbrev State.running (s : State) : Prop := s.fault = none

/-- Memory is in its canonical form, the model's own representation (DESIGN CHOICE, safe, log 20). -/
abbrev State.memWf (s : State) : Prop := Memory.wf s.params.font s.mem

/-- The invariant: memory is canonical, and while the core runs pc is at most 0x10FE (R23) and every
stack entry at most 0x1000, the largest value a call can push (DEDUCED, safe, log 21). -/
abbrev State.Inv (s : State) : Prop :=
  s.memWf ∧ (s.fault = none →
    s.pc.toNat ≤ 0x10FE ∧ ∀ k : Fin 16, (s.stack.get k).toNat ≤ 0x1000)

/-- What an instruction may change; whatever is not named stays. -/
structure Changes where
  regs : List Reg := []
  i : Bool := false
  pc : Bool := false
  /-- SP and the stack entries. -/
  calls : Bool := false
  dt : Bool := false
  st : Bool := false
  grid : Bool := false
  changed : Bool := false
  /-- The addresses of the bytes stored to. -/
  stored : List Nat := []

/-- The frame: t differs from s in nothing but what `c` names. The fault record and the model's own
fields are never among it. -/
def State.sameBut (c : Changes) (s t : State) : Prop :=
  (∀ r : Reg, r ∉ c.regs → t.readV r = s.readV r) ∧
  (c.i = false → t.i = s.i) ∧
  (c.pc = false → t.pc = s.pc) ∧
  (c.calls = false → t.sp = s.sp ∧ t.stack = s.stack) ∧
  (c.dt = false → t.dt = s.dt) ∧
  (c.st = false → t.st = s.st) ∧
  (c.grid = false → t.grid = s.grid) ∧
  (c.changed = false → t.changed = s.changed) ∧
  t.fault = s.fault ∧ t.params = s.params ∧ t.inputs = s.inputs ∧ t.cycle = s.cycle ∧
  (∀ a : Nat, a ∉ c.stored → t.readMem a = s.readMem a)

/-- The outcome is the fault entry of R202: a next state whose record holds this cause and the address
the cycle fetched from. Nothing is said of the rest of that state (log 3). -/
def faultsWith (o : Host.Outcome State Fault Refusal) (c : FaultCause) (fpc : Addr) : Prop :=
  ∃ t : State, o = .next t ∧ t.fault = some { cause := c, fpc := fpc }

/-- Result and flag as numbers after an instruction with destination x (R121): both stand, except that
VF as the destination ends holding the one `VF_ALIAS_ORDER` writes last. -/
def State.resultAndFlag (s t : State) (x : Reg) (result flag : Nat) : Prop :=
  (x ≠ regVF → (t.readV x).toNat = result ∧ (t.readV regVF).toNat = flag) ∧
  (x = regVF → (t.readV regVF).toNat =
    match s.params.vfAliasOrder with
    | .flagLast => flag
    | .resultLast => result)

/-- The addresses of n bytes from a on. -/
def addressesFrom (a n : Nat) : List Nat := (List.range n).map (a + ·)

/-- A sprite of n rows drawn at (xs, ys) has a set bit on the pixel in row y, column x: byte r is row
r, bit 7 - c its column c, and each pixel wraps by itself (R140, R142). -/
def spriteCovers (row : Nat → Byte) (n xs ys : Nat) (y : Fin 32) (x : Fin 64) : Bool :=
  (List.range n).any fun r => (List.range 8).any fun c =>
    (row r).getLsbD (7 - c) && (ys + r) % 32 == y.val && (xs + c) % 64 == x.val

end Sys2Proof.Machine

namespace Sys2Proof

/-- The general registers an instruction that does not fault may write: its destinations, and VF for
the instructions that write it as a flag (spec/10_state.md R21). -/
def Instr.mayWrite : Instr → List Reg
  | .cls | .ret | .sys _ | .jp _ | .call _ | .seImm _ _ | .sneImm _ _ | .seReg _ _ | .sneReg _ _
  | .ldI _ | .jpV0 _ | .skp _ | .sknp _ | .ldDtVx _ | .ldStVx _ | .ldF _ | .ldB _
  | .storeRegs _ => []
  | .ldImm x _ | .addImm x _ | .ldReg x _ | .orReg x _ | .andReg x _ | .xorReg x _ | .rnd x _
  | .ldVxDt x | .ldVxK x => [x]
  | .addReg x _ | .sub x _ | .shr x _ | .subn x _ | .shl x _ => [x, regVF]
  | .drw _ _ _ | .addI _ => [regVF]
  | .loadRegs x => (List.finRange 16).filter fun r => r ≤ x

end Sys2Proof
end

