-- ==== Sys2Proof/Certificates/Slice0/Obligations.lean ====
section
/-! DEFINITION. The statements for the provers. Each docstring names the rule of spec/ it formalises;
where a clause rests on a decision or an inference of the spec's own, it says so. -/

open Sys2Proof Sys2Proof.Machine

/-- R41. After initialization memory holds the font and zeroes, and every general register is 0.
-/
def Obligations.InitializeZeroesMemoryAndRegisters : Prop :=
  ∀ p : Params,
    (∀ r : Reg, (State.initialize p).readV r = 0) ∧
    (∀ a : Nat, a ≤ 0xFFF →
      (State.initialize p).readMem a = .ok (if h : a < 80 then p.font[a] else 0))

/-- 70_reset_and_hazards.md section 1 (R240, Initialize), 92_eei_decisions.md D18 and D29,
00_scope.md section 4 (R6). Reset values of pc, the call stack, the timers, I, the grid, changed
and the fault record, and the parameters of State.reset (D29, D18, R6). That the parameters stand
in the state is the model's choice (DESIGN CHOICE, log 1). -/
def Obligations.InitializeSetsEveryOtherRegister : Prop :=
  (∀ p : Params,
    (State.initialize p).pc = 0x200 ∧ (State.initialize p).sp.val = 0 ∧
    (∀ k : Fin 16, (State.initialize p).stack.get k = 0) ∧
    (State.initialize p).dt = 0 ∧ (State.initialize p).st = 0 ∧
    (State.initialize p).fault = none ∧
    (State.initialize p).i = 0 ∧
    (∀ (y : Fin 32) (x : Fin 64), (State.initialize p).grid.pixel y x = false) ∧
    (State.initialize p).changed = false ∧
    (State.initialize p).params = p) ∧
  State.reset = State.initialize defaultParams

/-- R242. Load program copies at most 3584 bytes to 0x200 and on, and changes nothing else; only
an unreadable source is non-loadable. The premise that memory is canonical is the model's own
representation (DESIGN CHOICE, log 20). -/
def Obligations.LoadProgramCopiesTheImage : Prop :=
  ∀ s : State, s.memWf →
    s.loadProgram none = none ∧
    ∀ image : List Byte, ∃ t : State, s.loadProgram (some image) = some t ∧
      (∀ (k : Nat) (h : k < image.length), k < 3584 → t.readMem (0x200 + k) = .ok image[k]) ∧
      s.sameBut { stored := addressesFrom 0x200 (min image.length 3584) } t

/-- 70_reset_and_hazards.md section 1 (R240), 10_state.md section 3 (R23, the largest value of pc,
marked derived there), 10_state.md section 4 (R24). The invariant holds in every initialized
machine: the model's canonical memory (log 20), pc at most 0x10FE, stack entries at most 0x1000.
That memory has a canonical form is the model's own representation (DESIGN CHOICE, log 20). The
bound 0x1000 on stack entries is the model's inference (DEDUCED, log 21). -/
def Obligations.InitializedStateSatisfiesInvariant : Prop :=
  ∀ p : Params, (State.initialize p).Inv

/-- 10_state.md section 3 (R23, the largest value of pc, marked derived there), 10_state.md
section 4 (R24), 40_control_flow.md section 2 (R103, decision D11 of the spec), 30_encoding.md
section 5 (R69, R70), 60_exceptions.md section 1 (R202, decision D14 of the spec). Every step
keeps the invariant: the model's canonical memory (log 20), and while the core runs pc at most
0x10FE and stack entries at most 0x1000. That memory has a canonical form is the model's own
representation (DESIGN CHOICE, log 20). The bound 0x1000 on stack entries is the model's inference
(DEDUCED, log 21): R24 and R103 push the advanced pc, and a fetch needs pc at most 0xFFE. -/
def Obligations.StepKeepsInvariant : Prop :=
  ∀ s t : State, s.Inv → step s = .next t → t.Inv

/-- 20_memory.md section 1 (R42, decision D12 of the spec). An access above 0xFFF raises
MemoryOutOfRange of its address; every other access takes place. An address is an unbounded
natural (R42). -/
def Obligations.MemoryAccessAboveTopFaults : Prop :=
  ∀ (s : State) (a : Nat),
    (0xFFF < a → s.readMem a = .error (.memoryOutOfRange a) ∧
      ∀ b : Byte, s.writeMem a b = .error (.memoryOutOfRange a)) ∧
    (a ≤ 0xFFF → (∃ b : Byte, s.readMem a = .ok b) ∧
      ∀ b : Byte, ∃ t : State, s.writeMem a b = .ok t)

/-- 20_memory.md section 6 (R49), 20_memory.md section 4 (R45), 20_memory.md section 5 (R48,
decision D19 of the spec), 20_memory.md section 1 (R42, decision D12 of the spec). A read returns
the last byte written to its address; a write leaves every other address and all other state
alone, and memory canonical (log 20). That memory has a canonical form is the model's own
representation (DESIGN CHOICE, log 20). That every byte is writable and that an access above 0xFFF
faults are the spec's own decisions (D19, D12, log 6). -/
def Obligations.ReadReturnsTheLastWrite : Prop :=
  ∀ (s t : State) (a : Nat) (b : Byte), s.memWf → s.writeMem a b = .ok t →
    (∀ x : Nat, t.readMem x = if x = a then .ok b else s.readMem x) ∧
    s.sameBut { stored := [a] } t ∧ t.memWf

/-- R61, R62, R63, 30_encoding.md section 2 (R65, patterns marked general knowledge there).
Decoding the word or the bytes of any well-formed instruction gives that instruction, with every
operand. The patterns are PRESUMED by the spec (log 5). -/
def Obligations.DecodeOfEncodeIsTheInstruction : Prop :=
  ∀ (strict : Bool) (i : Instr), i.wellFormed = true →
    decodeWord strict (encode i) = .ok i ∧
    ∀ rest : List Byte, decodeBytes strict (encodeBytes i ++ rest) = .ok (i, rest)

/-- R61, R67, 30_encoding.md section 2 (R65, R66, default of STRICT_SKIP_LOW_NIBBLE decided in
D3). Under the strict skip rule a word that decodes is the word of the instruction it decodes to,
which is well formed. The patterns are PRESUMED by the spec (log 5); the strict rule alone makes
the word unique (log 18). -/
def Obligations.EncodeOfDecodeIsTheWord : Prop :=
  ∀ (w : Opcode) (i : Instr), decodeWord true w = .ok i → encode i = w ∧ i.wellFormed = true

/-- 30_encoding.md section 2 (R64, R65, patterns marked general knowledge there), R67. The two-
level dispatch and the opcode map of masks decode every word alike. The patterns are PRESUMED by
the spec (log 5). -/
def Obligations.DispatchAgreesWithTheOpcodeMap : Prop :=
  ∀ (strict : Bool) (w : Opcode), decodeWord strict w = decodeByRows strict w

/-- 30_encoding.md section 3 (R66, R67, decision D3 of the spec). A word is unrecognized exactly
when R66 lists it; every other word is an instruction. The patterns are PRESUMED by the spec (log
5). -/
def Obligations.UnrecognizedWordsAreThoseListed : Prop :=
  ∀ (strict : Bool) (w : Opcode),
    let op := w.toNat / 0x1000
    let n := w.toNat % 0x10
    let kk := w.toNat % 0x100
    let listed :=
      (strict = true ∧ (op = 5 ∨ op = 9) ∧ n ≠ 0) ∨
      (op = 8 ∧ (n ∈ [0x8, 0x9, 0xA, 0xB, 0xC, 0xD, 0xF])) ∨
      (op = 0xE ∧ kk ∉ [0x9E, 0xA1]) ∨
      (op = 0xF ∧ kk ∉ [0x07, 0x0A, 0x15, 0x18, 0x1E, 0x29, 0x33, 0x55, 0x65])
    (listed → decodeWord strict w = .error (.unrecognized w)) ∧
    (¬ listed → ∃ i : Instr, decodeWord strict w = .ok i)

/-- R61. The fields op, X, Y, N, KK and NNN are the bits 15..12, 11..8, 7..4, 3..0, 7..0 and 11..0
of the word. -/
def Obligations.DecodedFieldsAreTheBitsOfTheWord : Prop :=
  ∀ w : Opcode,
    (fieldOp w).toNat = w.toNat / 0x1000 ∧
    (fieldX w).val = w.toNat / 0x100 % 0x10 ∧
    (fieldY w).val = w.toNat / 0x10 % 0x10 ∧
    (fieldN w).toNat = w.toNat % 0x10 ∧
    (fieldKK w).toNat = w.toNat % 0x100 ∧
    (fieldNNN w).toNat = w.toNat % 0x1000

/-- 95_test_vectors.md section 2, 30_encoding.md section 2 (R65, patterns marked general knowledge
there). Words written out in the spec's examples decode to the instructions named there. The
patterns are PRESUMED by the spec (log 5). -/
def Obligations.SampleWordsDecodeAsTheSpecReadsThem : Prop :=
  decodeWord true 0x00E0 = .ok .cls ∧
  decodeWord true 0x00E1 = .ok (.sys 0x0E1) ∧
  decodeWord true 0x2300 = .ok (.call 0x300) ∧
  decodeWord true 0x3342 = .ok (.seImm 3 0x42) ∧
  decodeWord true 0x8125 = .ok (.sub 1 2) ∧
  decodeWord true 0x812E = .ok (.shl 1 2) ∧
  decodeWord true 0xD125 = .ok (.drw 1 2 5) ∧
  decodeWord true 0xE59E = .ok (.skp 5) ∧
  decodeWord true 0xF30A = .ok (.ldVxK 3) ∧
  decodeWord true 0xF533 = .ok (.ldB 5) ∧
  decodeWord true 0x5121 = .error (.unrecognized 0x5121)

/-- 30_encoding.md section 5 (R69), R43, R207. When the two bytes at pc decode to an instruction,
the step is that instruction between the start and the end of a cycle. The cycle's arguments stand
in the model's own fields (DESIGN CHOICE, log 2). The sum or difference is taken modulo 0x10000,
which only a pc no run reaches can show: the model's own choice (DESIGN CHOICE, log 13). -/
def Obligations.StepRunsTheDecodedInstruction : Prop :=
  ∀ (s : State) (hi lo : Byte) (i : Instr), s.running →
    s.readMem s.pc.toNat = .ok hi → s.readMem (s.pc.toNat + 1) = .ok lo →
    decodeWord s.params.strictSkip (hi ++ lo) = .ok i →
    step s =
      match exec i { s with
          changed := if s.params.changedPolicy = .perCycle then false else s.changed
          pc := s.pc + 2 } with
      | .next t => .next
          { t with
            dt := if t.fault = none then tickDown t.dt else t.dt
            st := if t.fault = none then tickDown t.st else t.st
            inputs := t.inputs.tail
            cycle := t.cycle + 1 }
      | .fault r => .fault r
      | .refused r => .refused r

/-- 60_exceptions.md section 4 (R207), 44_input_timers.md section 2 (R184, R185; the value after
the tick is marked derived there). A cycle without a fault leaves each timer one lower, never
below 0, whatever the instruction; a write of the timer is ticked too. -/
def Obligations.TimersTickOncePerCycle : Prop :=
  ∀ (s t : State) (hi lo : Byte) (i : Instr), s.running →
    s.readMem s.pc.toNat = .ok hi → s.readMem (s.pc.toNat + 1) = .ok lo →
    decodeWord s.params.strictSkip (hi ++ lo) = .ok i →
    step s = .next t → t.running →
    ((∀ x : Reg, i ≠ .ldDtVx x) → t.dt.toNat = s.dt.toNat - 1) ∧
    (∀ x : Reg, i = .ldDtVx x → t.dt.toNat = (s.readV x).toNat - 1) ∧
    ((∀ x : Reg, i ≠ .ldStVx x) → t.st.toNat = s.st.toNat - 1) ∧
    (∀ x : Reg, i = .ldStVx x → t.st.toNat = (s.readV x).toNat - 1)

/-- 10_state.md section 6 (R27, decision D8 of the spec). After a cycle without a fault, changed
says whether the cycle executed CLS or DRW (per_cycle), or also whether it was set before
(sticky). -/
def Obligations.ChangedReportsClsAndDrw : Prop :=
  ∀ (s t : State) (hi lo : Byte) (i : Instr), s.running →
    s.readMem s.pc.toNat = .ok hi → s.readMem (s.pc.toNat + 1) = .ok lo →
    decodeWord s.params.strictSkip (hi ++ lo) = .ok i →
    step s = .next t → t.running →
    (t.changed = true ↔
      (s.params.changedPolicy = .sticky ∧ s.changed = true) ∨
      i = .cls ∨ ∃ (x y : Reg) (n : BitVec 4), i = .drw x y n)

/-- 30_encoding.md section 5 (R69), 20_memory.md section 1 (R42, decision D12 of the spec),
60_exceptions.md section 1 (R204, decision D26 of the spec). A fetch at pc 0xFFF or above faults
at the first address above 0xFFF, with the record naming pc. -/
def Obligations.FetchOutsideMemoryFaults : Prop :=
  ∀ s : State, s.running → 0xFFE < s.pc.toNat →
    faultsWith (step s)
      (.memoryOutOfRange (if s.pc.toNat = 0xFFF then 0x1000 else s.pc.toNat)) s.pc

/-- 30_encoding.md section 3 (R66, decision D3 of the spec), 30_encoding.md section 5 (R69). A
fetched word that no row recognizes enters the fault UnrecognizedInstruction of that word, with
the record naming pc. -/
def Obligations.UnrecognizedWordFaults : Prop :=
  ∀ (s : State) (hi lo : Byte) (e : DecodeError), s.running →
    s.readMem s.pc.toNat = .ok hi → s.readMem (s.pc.toNat + 1) = .ok lo →
    decodeWord s.params.strictSkip (hi ++ lo) = .error e →
    faultsWith (step s) (.unrecognizedInstruction (hi ++ lo)) s.pc

/-- 60_exceptions.md section 1 (R203), 70_reset_and_hazards.md section 5 (R248, decision D28 of
the spec). A core that holds a fault record has no next state: the step stops with that record;
and no run is finished there or later. The outcome that says there is no step is the model's
rendering (DEDUCED, log 11), and END_PC is an argument of the predicates (log 14). -/
def Obligations.HaltedCoreHasNoStep : Prop :=
  ∀ (s : State) (r : FaultRecord), s.fault = some r →
    step s = .fault (.halted r) ∧
      ∀ endPc : EndPc, ¬ s.atEnd endPc ∧ ∀ n : Nat, s.finishedAfter endPc n = none

/-- 30_encoding.md section 5 (R70), 60_exceptions.md section 1 (R202, decision D14 of the spec),
60_exceptions.md section 2 (R205, decision D22 of the spec), 70_reset_and_hazards.md section 4
(R246). A running core always has a next state, and the step spends exactly one cycle's arguments
and no parameter. The cycle's arguments stand in the model's own fields (DESIGN CHOICE, log 2). -/
def Obligations.RunningCoreAlwaysSteps : Prop :=
  ∀ s : State, s.running → ∃ t : State, step s = .next t ∧
    t.params = s.params ∧ t.inputs = s.inputs.tail ∧ t.cycle = s.cycle + 1

/-- 60_exceptions.md section 1 (R200, R201; codes and causes decided in D11 to D15). An
instruction faults only for the causes R200 lists for it, and the record names the cause and the
fetch address. That the record holds pc - 2 at this point is DEDUCED (log 4), modulo 0x10000
(DESIGN CHOICE, log 13). -/
def Obligations.FaultRecordNamesItsCause : Prop :=
  ∀ (i : Instr) (s t : State) (r : FaultRecord), s.running → exec i s = .next t →
    t.fault = some r →
    r.fpc = s.pc - 2 ∧
    match r.cause with
    | .unrecognizedInstruction w =>
        s.params.sysPolicy = .fault ∧ ∃ nnn : BitVec 12, i = .sys nnn ∧ w = 0x0#4 ++ nnn
    | .memoryOutOfRange a =>
        0xFFF < a ∧ ((∃ (x y : Reg) (n : BitVec 4), i = .drw x y n) ∨
          ∃ x : Reg, i = .ldB x ∨ i = .storeRegs x ∨ i = .loadRegs x)
    | .stackOverflow => s.sp.val = 16 ∧ ∃ nnn : BitVec 12, i = .call nnn
    | .stackUnderflow => s.sp.val = 0 ∧ i = .ret
    | .keyIndexOutOfRange k =>
        15 < k.toNat ∧ ∃ x : Reg, (i = .skp x ∨ i = .sknp x) ∧ k = s.readV x

/-- 10_state.md section 6 (R26, R27). No instruction but CLS and DRW changes the pixel grid or the
changed flag. -/
def Obligations.OnlyClsAndDrwChangeTheGrid : Prop :=
  ∀ (i : Instr) (s t : State), exec i s = .next t → t.running →
    i ≠ .cls → (∀ (x y : Reg) (n : BitVec 4), i ≠ .drw x y n) →
    t.grid = s.grid ∧ t.changed = s.changed

/-- R45. No instruction but LD B, Vx and LD [I], Vx changes any byte of memory. -/
def Obligations.OnlyBcdAndBlockStoreWriteMemory : Prop :=
  ∀ (i : Instr) (s t : State), exec i s = .next t → t.running →
    (∀ x : Reg, i ≠ .ldB x ∧ i ≠ .storeRegs x) →
    ∀ a : Nat, t.readMem a = s.readMem a

/-- 10_state.md section 4 (R24). No instruction but CALL and RET changes SP or a stack entry. -/
def Obligations.OnlyCallAndRetTouchTheCallStack : Prop :=
  ∀ (i : Instr) (s t : State), exec i s = .next t → t.running →
    i ≠ .ret → (∀ nnn : BitVec 12, i ≠ .call nnn) →
    t.sp = s.sp ∧ t.stack = s.stack

/-- 10_state.md section 2 (R22). I is written only by LD I, ADD I, LD F, and by the block
transfers when LOADSTORE_I_INCREMENT is x_plus_1. -/
def Obligations.OnlyNamedInstructionsWriteIndex : Prop :=
  ∀ (i : Instr) (s t : State), exec i s = .next t → t.running →
    (∀ nnn : BitVec 12, i ≠ .ldI nnn) →
    (∀ x : Reg, i ≠ .addI x ∧ i ≠ .ldF x) →
    (s.params.loadStoreInc = .xPlusOne → ∀ x : Reg, i ≠ .storeRegs x ∧ i ≠ .loadRegs x) →
    t.i = s.i

/-- 10_state.md section 1 (R20, R21). An instruction changes no general register but its
destinations, and VF where it is the flag. -/
def Obligations.OnlyDestinationRegistersChange : Prop :=
  ∀ (i : Instr) (s t : State) (r : Reg), exec i s = .next t → t.running →
    r ∉ i.mayWrite → t.readV r = s.readV r

/-- 10_state.md section 5 (R25). DT is written by LD DT, Vx alone and ST by LD ST, Vx alone, apart
from the tick. -/
def Obligations.OnlyTimerLoadsWriteTimers : Prop :=
  ∀ (i : Instr) (s t : State), exec i s = .next t → t.running →
    ((∀ x : Reg, i ≠ .ldDtVx x) → t.dt = s.dt) ∧
    ((∀ x : Reg, i ≠ .ldStVx x) → t.st = s.st)

/-- 10_state.md section 3 (R23), 40_control_flow.md section 1 (R109, in part marked derived
there). Beyond the advance of the fetch, pc is changed only by the jumps, CALL, RET, the skips and
LD Vx, K. -/
def Obligations.OnlyControlTransfersChangePc : Prop :=
  ∀ (i : Instr) (s t : State), exec i s = .next t → t.running →
    i ≠ .ret →
    (∀ nnn : BitVec 12, i ≠ .jp nnn ∧ i ≠ .call nnn ∧ i ≠ .jpV0 nnn) →
    (∀ (x : Reg) (kk : Byte), i ≠ .seImm x kk ∧ i ≠ .sneImm x kk) →
    (∀ x y : Reg, i ≠ .seReg x y ∧ i ≠ .sneReg x y) →
    (∀ x : Reg, i ≠ .skp x ∧ i ≠ .sknp x ∧ i ≠ .ldVxK x) →
    t.pc = s.pc

/-- 10_state.md section 7 (R28), 30_encoding.md section 5 (R71, decision D27 of the spec). The
draw reaches nothing but RND, and the key snapshot nothing but SKP, SKNP and LD Vx, K. The cycle's
arguments stand in the model's own fields (DESIGN CHOICE, log 2). -/
def Obligations.KeysAndDrawReachOnlyTheirReaders : Prop :=
  ∀ (i : Instr) (s t : State) (a b : CycleInput) (rest : List CycleInput),
    s.inputs = a :: rest → exec i s = .next t → t.running →
    (a.keys = b.keys ∨ ∀ x : Reg, i ≠ .skp x ∧ i ≠ .sknp x ∧ i ≠ .ldVxK x) →
    (a.draw = b.draw ∨ ∀ (x : Reg) (kk : Byte), i ≠ .rnd x kk) →
    exec i { s with inputs := b :: rest } = .next { t with inputs := b :: rest }

/-- 40_control_flow.md section 2 (R100, decision D2 of the spec). SYS has no effect under
SYS_POLICY nop, and enters UnrecognizedInstruction of its word under fault. That the record holds
pc - 2 at this point is DEDUCED (log 4), modulo 0x10000 (DESIGN CHOICE, log 13). -/
def Obligations.SysFollowsItsPolicy : Prop :=
  ∀ (s : State) (nnn : BitVec 12),
    (s.params.sysPolicy = .nop → exec (.sys nnn) s = .next s) ∧
    (s.params.sysPolicy = .fault →
      faultsWith (exec (.sys nnn) s) (.unrecognizedInstruction (0x0#4 ++ nnn)) (s.pc - 2))

/-- 40_control_flow.md section 2 (R101, decision D11 of the spec). RET takes pc from the top stack
entry and lowers SP; with SP 0 it enters StackUnderflow. That the record holds pc - 2 at this
point is DEDUCED (log 4), modulo 0x10000 (DESIGN CHOICE, log 13). -/
def Obligations.RetPopsTheReturnAddress : Prop :=
  ∀ s : State,
    (∀ k : Fin 16, s.sp.val = k.val + 1 → ∃ t : State, exec .ret s = .next t ∧
      t.sp.val = k.val ∧ t.pc = s.stack.get k ∧ t.stack = s.stack ∧
      s.sameBut { pc := true, calls := true } t) ∧
    (s.sp.val = 0 → faultsWith (exec .ret s) .stackUnderflow (s.pc - 2))

/-- R102. JP nnn sets pc to nnn, zero-extended, and changes nothing else. -/
def Obligations.JpSetsPcToItsAddress : Prop :=
  ∀ (s : State) (nnn : BitVec 12), ∃ t : State, exec (.jp nnn) s = .next t ∧
    t.pc.toNat = nnn.toNat ∧ s.sameBut { pc := true } t

/-- 40_control_flow.md section 2 (R103, decision D11 of the spec). CALL nnn stores the advanced pc
in the next stack entry, raises SP and jumps; with SP 16 it enters StackOverflow. That the record
holds pc - 2 at this point is DEDUCED (log 4), modulo 0x10000 (DESIGN CHOICE, log 13). -/
def Obligations.CallPushesTheAdvancedPc : Prop :=
  ∀ (s : State) (nnn : BitVec 12),
    (∀ k : Fin 16, s.sp.val = k.val → ∃ t : State, exec (.call nnn) s = .next t ∧
      t.stack.get k = s.pc ∧ (∀ j : Fin 16, j ≠ k → t.stack.get j = s.stack.get j) ∧
      t.sp.val = k.val + 1 ∧ t.pc.toNat = nnn.toNat ∧
      s.sameBut { pc := true, calls := true } t) ∧
    (s.sp.val = 16 → faultsWith (exec (.call nnn) s) .stackOverflow (s.pc - 2))

/-- 40_control_flow.md section 2 (R104, R105). SE Vx, kk adds 2 to pc when V[X] = kk, SNE Vx, kk
when V[X] differs from kk; nothing else changes. The sum or difference is taken modulo 0x10000,
which only a pc no run reaches can show: the model's own choice (DESIGN CHOICE, log 13). -/
def Obligations.SkipsCompareRegisterWithImmediate : Prop :=
  ∀ (s : State) (x : Reg) (kk : Byte),
    (∃ t : State, exec (.seImm x kk) s = .next t ∧
      t.pc = (if s.readV x = kk then s.pc + 2 else s.pc) ∧ s.sameBut { pc := true } t) ∧
    (∃ t : State, exec (.sneImm x kk) s = .next t ∧
      t.pc = (if s.readV x = kk then s.pc else s.pc + 2) ∧ s.sameBut { pc := true } t)

/-- 40_control_flow.md section 2 (R106, R107). SE Vx, Vy adds 2 to pc when V[X] = V[Y], SNE Vx, Vy
when they differ; nothing else changes. The sum or difference is taken modulo 0x10000, which only
a pc no run reaches can show: the model's own choice (DESIGN CHOICE, log 13). -/
def Obligations.SkipsCompareTwoRegisters : Prop :=
  ∀ (s : State) (x y : Reg),
    (∃ t : State, exec (.seReg x y) s = .next t ∧
      t.pc = (if s.readV x = s.readV y then s.pc + 2 else s.pc) ∧ s.sameBut { pc := true } t) ∧
    (∃ t : State, exec (.sneReg x y) s = .next t ∧
      t.pc = (if s.readV x = s.readV y then s.pc else s.pc + 2) ∧ s.sameBut { pc := true } t)

/-- 40_control_flow.md section 2 (R108, decision D31 of the spec). JP V0, nnn sets pc to V0 + nnn,
not reduced to 12 bits (the spec's own decision D31), and changes nothing else. -/
def Obligations.JpV0AddsV0WithoutReduction : Prop :=
  ∀ (s : State) (nnn : BitVec 12), ∃ t : State, exec (.jpV0 nnn) s = .next t ∧
    t.pc.toNat = (s.readV regV0).toNat + nnn.toNat ∧ s.sameBut { pc := true } t

/-- R122. LD Vx, kk writes kk to V[X] and changes nothing else. -/
def Obligations.LdImmWritesTheImmediate : Prop :=
  ∀ (s : State) (x : Reg) (kk : Byte), ∃ t : State, exec (.ldImm x kk) s = .next t ∧
    t.readV x = kk ∧ s.sameBut { regs := [x] } t

/-- R123. ADD Vx, kk writes (V[X] + kk) mod 256 to V[X] and changes nothing else, VF included
unless X names it. -/
def Obligations.AddImmWrapsWithoutFlag : Prop :=
  ∀ (s : State) (x : Reg) (kk : Byte), ∃ t : State, exec (.addImm x kk) s = .next t ∧
    (t.readV x).toNat = ((s.readV x).toNat + kk.toNat) % 256 ∧ s.sameBut { regs := [x] } t

/-- R124. LD Vx, Vy copies V[Y] to V[X] and changes nothing else. -/
def Obligations.LdRegCopiesTheRegister : Prop :=
  ∀ (s : State) (x y : Reg), ∃ t : State, exec (.ldReg x y) s = .next t ∧
    t.readV x = s.readV y ∧ s.sameBut { regs := [x] } t

/-- 41_register_alu.md section 3 (R125, R126, R127; VF untouched is marked derived there). OR, AND
and XOR write the bitwise result to V[X] and change nothing else, VF included unless X names it.
-/
def Obligations.LogicalOperationsLeaveVfAlone : Prop :=
  ∀ (s : State) (x y : Reg),
    (∃ t : State, exec (.orReg x y) s = .next t ∧
      (∀ k : Nat, (t.readV x).getLsbD k = ((s.readV x).getLsbD k || (s.readV y).getLsbD k)) ∧
      s.sameBut { regs := [x] } t) ∧
    (∃ t : State, exec (.andReg x y) s = .next t ∧
      (∀ k : Nat, (t.readV x).getLsbD k = ((s.readV x).getLsbD k && (s.readV y).getLsbD k)) ∧
      s.sameBut { regs := [x] } t) ∧
    (∃ t : State, exec (.xorReg x y) s = .next t ∧
      (∀ k : Nat, (t.readV x).getLsbD k = ((s.readV x).getLsbD k ^^ (s.readV y).getLsbD k)) ∧
      s.sameBut { regs := [x] } t)

/-- 41_register_alu.md section 3 (R128), 41_register_alu.md section 1 (R121, decision D5 of the
spec). ADD Vx, Vy writes the sum mod 256 and VF = carry, in VF_ALIAS_ORDER when X names VF. -/
def Obligations.AddRegSetsCarry : Prop :=
  ∀ (s : State) (x y : Reg), ∃ t : State, exec (.addReg x y) s = .next t ∧
    s.resultAndFlag t x (((s.readV x).toNat + (s.readV y).toNat) % 256)
      (if (s.readV x).toNat + (s.readV y).toNat > 255 then 1 else 0) ∧
    s.sameBut { regs := [x, regVF] } t

/-- 41_register_alu.md section 3 (R129, R131), 41_register_alu.md section 1 (R121, decision D5 of
the spec), 90_conflicts.md C8. SUB writes V[X] - V[Y] and SUBN V[Y] - V[X], mod 256, and VF = no
borrow, in VF_ALIAS_ORDER when X names VF. -/
def Obligations.SubtractsSetNoBorrow : Prop :=
  ∀ (s : State) (x y : Reg),
    (∃ t : State, exec (.sub x y) s = .next t ∧
      s.resultAndFlag t x ((256 + (s.readV x).toNat - (s.readV y).toNat) % 256)
        (if (s.readV x).toNat ≥ (s.readV y).toNat then 1 else 0) ∧
      s.sameBut { regs := [x, regVF] } t) ∧
    (∃ t : State, exec (.subn x y) s = .next t ∧
      s.resultAndFlag t x ((256 + (s.readV y).toNat - (s.readV x).toNat) % 256)
        (if (s.readV y).toNat ≥ (s.readV x).toNat then 1 else 0) ∧
      s.sameBut { regs := [x, regVF] } t)

/-- 41_register_alu.md section 3 (R130, R132, decision D6 of the spec), 41_register_alu.md section
1 (R121, decision D5 of the spec). SHR and SHL shift the SHIFT_SOURCE register by one into V[X]
and put the bit shifted out in VF. -/
def Obligations.ShiftsSetTheBitShiftedOut : Prop :=
  ∀ (s : State) (x y : Reg) (src : Nat),
    src = (match s.params.shiftSource with
      | .vx => (s.readV x).toNat
      | .vy => (s.readV y).toNat) →
    (∃ t : State, exec (.shr x y) s = .next t ∧
      s.resultAndFlag t x (src / 2) (src % 2) ∧ s.sameBut { regs := [x, regVF] } t) ∧
    (∃ t : State, exec (.shl x y) s = .next t ∧
      s.resultAndFlag t x (2 * src % 256) (src / 128) ∧ s.sameBut { regs := [x, regVF] } t)

/-- 41_register_alu.md section 3 (R133), 30_encoding.md section 5 (R71, decision D27 of the spec).
RND Vx, kk writes the draw of the cycle, masked with kk, to V[X] and changes nothing else, for
every draw. The cycle's arguments stand in the model's own fields (DESIGN CHOICE, log 2). -/
def Obligations.RndMasksTheDrawOfTheCycle : Prop :=
  ∀ (s : State) (x : Reg) (kk : Byte),
    (∃ t : State, exec (.rnd x kk) s = .next t ∧
      t.readV x = s.cycleInput.draw &&& kk ∧ s.sameBut { regs := [x] } t) ∧
    ∀ (a : CycleInput) (rest : List CycleInput), s.inputs = a :: rest → s.cycleInput = a

/-- R141. CLS clears all 2048 pixels, sets changed and changes nothing else. -/
def Obligations.ClsClearsEveryPixel : Prop :=
  ∀ s : State, ∃ t : State, exec .cls s = .next t ∧
    (∀ (y : Fin 32) (x : Fin 64), t.grid.pixel y x = false) ∧ t.changed = true ∧
    s.sameBut { grid := true, changed := true } t

/-- 42_display.md section 2 (R142, decision D23 of the spec), 42_display.md section 1 (R140,
decision D16 of the spec). DRW flips exactly the covered pixels, wrapping each one, sets VF to the
collision and changed, and changes nothing else. The bit order of a sprite byte is PRESUMED by the
spec (log 15). -/
def Obligations.DrwFlipsThePixelsOfTheSprite : Prop :=
  ∀ (s : State) (x y : Reg) (n : BitVec 4) (coord : Reg → Nat),
    (∀ r : Reg, coord r =
      if s.params.drwVfSample = .afterClear ∧ r = regVF then 0 else (s.readV r).toNat) →
    (n = 0 ∨ s.i.toNat + n.toNat ≤ 0x1000) →
    let covered := spriteCovers (fun r => s.peek (s.i.toNat + r)) n.toNat (coord x) (coord y)
    ∃ t : State, exec (.drw x y n) s = .next t ∧
      (∀ (py : Fin 32) (px : Fin 64),
        t.grid.pixel py px = (s.grid.pixel py px ^^ covered py px)) ∧
      (t.readV regVF = 1 ∨ t.readV regVF = 0) ∧
      (t.readV regVF = 1 ↔ ∃ (py : Fin 32) (px : Fin 64),
        s.grid.pixel py px = true ∧ covered py px = true) ∧
      t.changed = true ∧
      s.sameBut { regs := [regVF], grid := true, changed := true } t

/-- 42_display.md section 2 (R142), 20_memory.md section 1 (R42, decision D12 of the spec). DRW
enters MemoryOutOfRange at the first sprite byte above 0xFFF. That the record holds pc - 2 at this
point is DEDUCED (log 4), modulo 0x10000 (DESIGN CHOICE, log 13). -/
def Obligations.DrwFaultsWhenItsSpriteLeavesMemory : Prop :=
  ∀ (s : State) (x y : Reg) (n : BitVec 4), n ≠ 0 → 0x1000 < s.i.toNat + n.toNat →
    faultsWith (exec (.drw x y n) s)
      (.memoryOutOfRange (if 0xFFF < s.i.toNat then s.i.toNat else 0x1000)) (s.pc - 2)

/-- 42_display.md section 2 (R142), 95_test_vectors.md section 1 (S6). Drawing a sprite twice (X,
Y not VF) restores the grid, and the second draw reports a collision exactly when the first turned
a pixel on. -/
def Obligations.DrawingTwiceRestoresTheGrid : Prop :=
  ∀ (s t : State) (x y : Reg) (n : BitVec 4), x ≠ regVF → y ≠ regVF →
    (n = 0 ∨ s.i.toNat + n.toNat ≤ 0x1000) →
    exec (.drw x y n) s = .next t →
    ∃ u : State, exec (.drw x y n) t = .next u ∧ u.grid = s.grid ∧
      (u.readV regVF = 1 ∨ u.readV regVF = 0) ∧
      (u.readV regVF = 1 ↔ ∃ (py : Fin 32) (px : Fin 64),
        t.grid.pixel py px = true ∧ s.grid.pixel py px = false)

/-- R160. LD I, nnn sets I to nnn, zero-extended, and changes nothing else. -/
def Obligations.LdISetsIndex : Prop :=
  ∀ (s : State) (nnn : BitVec 12), ∃ t : State, exec (.ldI nnn) s = .next t ∧
    t.i.toNat = nnn.toNat ∧ s.sameBut { i := true } t

/-- 43_index_memory.md section 2 (R161, decision D24 of the spec). ADD I, Vx adds V[X] to I mod
0x10000 (the spec's own D24) and sets VF exactly when the sum exceeds 0xFFF. -/
def Obligations.AddIFlagsSumAboveTop : Prop :=
  ∀ (s : State) (x : Reg), ∃ t : State, exec (.addI x) s = .next t ∧
    t.i.toNat = (s.i.toNat + (s.readV x).toNat) % 0x10000 ∧
    t.readV regVF = (if s.i.toNat + (s.readV x).toNat > 0xFFF then 1 else 0) ∧
    s.sameBut { regs := [regVF], i := true } t

/-- R162. LD F, Vx sets I to 5 times the whole value of V[X] and changes nothing else. -/
def Obligations.LdFPointsAtTheGlyph : Prop :=
  ∀ (s : State) (x : Reg), ∃ t : State, exec (.ldF x) s = .next t ∧
    t.i.toNat = 5 * (s.readV x).toNat ∧ s.sameBut { i := true } t

/-- 43_index_memory.md section 2 (R163), 20_memory.md section 1 (R42, decision D12 of the spec).
LD B, Vx stores the three decimal digits of V[X] at I, I + 1, I + 2 and changes nothing else, or
faults at the first address above 0xFFF. The premise that memory is canonical is the model's own
representation (DESIGN CHOICE, log 20). That the record holds pc - 2 at this point is DEDUCED (log
4), modulo 0x10000 (DESIGN CHOICE, log 13). -/
def Obligations.LdBStoresTheDecimalDigits : Prop :=
  ∀ (s : State) (x : Reg), s.memWf →
    (s.i.toNat + 2 ≤ 0xFFF → ∃ t : State, exec (.ldB x) s = .next t ∧
      t.readMem s.i.toNat = .ok (BitVec.ofNat 8 ((s.readV x).toNat / 100)) ∧
      t.readMem (s.i.toNat + 1) = .ok (BitVec.ofNat 8 ((s.readV x).toNat / 10 % 10)) ∧
      t.readMem (s.i.toNat + 2) = .ok (BitVec.ofNat 8 ((s.readV x).toNat % 10)) ∧
      s.sameBut { stored := addressesFrom s.i.toNat 3 } t) ∧
    (0xFFF < s.i.toNat + 2 → faultsWith (exec (.ldB x) s)
      (.memoryOutOfRange (if 0xFFF < s.i.toNat then s.i.toNat else 0x1000)) (s.pc - 2))

/-- 43_index_memory.md section 2 (R164, decision D7 of the spec), 20_memory.md section 1 (R42,
decision D12 of the spec). LD [I], Vx stores V0..Vx at I..I+X and changes nothing else but I under
x_plus_1, or faults at the first address above 0xFFF. The premise that memory is canonical is the
model's own representation (DESIGN CHOICE, log 20). That the record holds pc - 2 at this point is
DEDUCED (log 4), modulo 0x10000 (DESIGN CHOICE, log 13). -/
def Obligations.BlockStoreCopiesV0ToVx : Prop :=
  ∀ (s : State) (x : Reg), s.memWf →
    (s.i.toNat + x.val ≤ 0xFFF → ∃ t : State, exec (.storeRegs x) s = .next t ∧
      (∀ k : Reg, k ≤ x → t.readMem (s.i.toNat + k.val) = .ok (s.readV k)) ∧
      t.i.toNat = (match s.params.loadStoreInc with
        | .none => s.i.toNat
        | .xPlusOne => (s.i.toNat + x.val + 1) % 0x10000) ∧
      s.sameBut { i := true, stored := addressesFrom s.i.toNat (x.val + 1) } t) ∧
    (0xFFF < s.i.toNat + x.val → faultsWith (exec (.storeRegs x) s)
      (.memoryOutOfRange (if 0xFFF < s.i.toNat then s.i.toNat else 0x1000)) (s.pc - 2))

/-- 43_index_memory.md section 2 (R165, decision D7 of the spec), 20_memory.md section 1 (R42,
decision D12 of the spec). LD Vx, [I] loads V0..Vx from I..I+X and changes nothing else but I
under x_plus_1, or faults at the first address above 0xFFF. That the record holds pc - 2 at this
point is DEDUCED (log 4), modulo 0x10000 (DESIGN CHOICE, log 13). -/
def Obligations.BlockLoadFillsV0ToVx : Prop :=
  ∀ (s : State) (x : Reg),
    (s.i.toNat + x.val ≤ 0xFFF → ∃ t : State, exec (.loadRegs x) s = .next t ∧
      (∀ k : Reg, k ≤ x → s.readMem (s.i.toNat + k.val) = .ok (t.readV k)) ∧
      t.i.toNat = (match s.params.loadStoreInc with
        | .none => s.i.toNat
        | .xPlusOne => (s.i.toNat + x.val + 1) % 0x10000) ∧
      s.sameBut { i := true, regs := (List.finRange 16).filter fun k => k ≤ x } t) ∧
    (0xFFF < s.i.toNat + x.val → faultsWith (exec (.loadRegs x) s)
      (.memoryOutOfRange (if 0xFFF < s.i.toNat then s.i.toNat else 0x1000)) (s.pc - 2))

/-- 95_test_vectors.md section 1 (S8), 43_index_memory.md section 2 (R164, R165, decision D7 of
the spec). Loading back from where a block store put V0..Vx restores those registers, whatever the
registers hold meanwhile. The premise that memory is canonical is the model's own representation
(DESIGN CHOICE, log 20). -/
def Obligations.BlockLoadRestoresWhatBlockStoreSaved : Prop :=
  ∀ (s t u : State) (x : Reg), s.memWf → s.i.toNat + x.val ≤ 0xFFF →
    exec (.storeRegs x) s = .next t →
    u.mem = t.mem → u.params = t.params → u.i = s.i →
    ∃ w : State, exec (.loadRegs x) u = .next w ∧ ∀ k : Reg, k ≤ x → w.readV k = s.readV k

/-- 95_test_vectors.md section 1 (S9), 40_control_flow.md section 2 (R101, R103, decision D11 of
the spec). A CALL succeeds at every depth below 16 and goes one deeper; RET at that depth resumes
behind it, whatever was called in between. -/
def Obligations.RetReturnsBehindTheCall : Prop :=
  ∀ (s : State) (nnn : BitVec 12), s.sp.val < 16 →
    ∃ t : State, exec (.call nnn) s = .next t ∧ t.fault = s.fault ∧
      t.sp.val = s.sp.val + 1 ∧
      (∀ k : Fin 16, k.val < s.sp.val → t.stack.get k = s.stack.get k) ∧
      ∀ u : State, u.sp = t.sp →
        (∀ k : Fin 16, k.val < t.sp.val → u.stack.get k = t.stack.get k) →
        ∃ w : State, exec .ret u = .next w ∧ w.pc = s.pc ∧ w.sp = s.sp ∧
          w.stack = u.stack ∧ w.fault = u.fault

/-- 44_input_timers.md section 1 (R180, R181, decision D13 of the spec). SKP and SKNP skip on the
key V[X] names; V[X] above 15 enters KeyIndexOutOfRange. The cycle's arguments stand in the
model's own fields (DESIGN CHOICE, log 2). The sum or difference is taken modulo 0x10000, which
only a pc no run reaches can show: the model's own choice (DESIGN CHOICE, log 13). That the record
holds pc - 2 at this point is DEDUCED (log 4), modulo 0x10000 (DESIGN CHOICE, log 13). -/
def Obligations.KeySkipsTestTheSnapshot : Prop :=
  ∀ (s : State) (x : Reg),
    (∀ k : Fin 16, (s.readV x).toNat = k.val →
      (∃ t : State, exec (.skp x) s = .next t ∧
        t.pc = (if s.cycleInput.keys.get k = true then s.pc + 2 else s.pc) ∧
        s.sameBut { pc := true } t) ∧
      (∃ t : State, exec (.sknp x) s = .next t ∧
        t.pc = (if s.cycleInput.keys.get k = true then s.pc else s.pc + 2) ∧
        s.sameBut { pc := true } t)) ∧
    (15 < (s.readV x).toNat →
      faultsWith (exec (.skp x) s) (.keyIndexOutOfRange (s.readV x)) (s.pc - 2) ∧
      faultsWith (exec (.sknp x) s) (.keyIndexOutOfRange (s.readV x)) (s.pc - 2))

/-- 44_input_timers.md section 1 (R182, decision D10 of the spec). LD Vx, K stores the lowest
pressed key (the spec's own D10) in V[X], or takes pc back by 2 when none is pressed. The cycle's
arguments stand in the model's own fields (DESIGN CHOICE, log 2). The sum or difference is taken
modulo 0x10000, which only a pc no run reaches can show: the model's own choice (DESIGN CHOICE,
log 13). -/
def Obligations.KeyWaitStoresTheLowestKeyOrRewinds : Prop :=
  ∀ (s : State) (x : Reg),
    (∀ k : Fin 16, s.cycleInput.keys.get k = true →
      (∀ j : Fin 16, j < k → s.cycleInput.keys.get j = false) →
      ∃ t : State, exec (.ldVxK x) s = .next t ∧
        (t.readV x).toNat = k.val ∧ s.sameBut { regs := [x] } t) ∧
    ((∀ k : Fin 16, s.cycleInput.keys.get k = false) →
      ∃ t : State, exec (.ldVxK x) s = .next t ∧
        t.pc = s.pc - 2 ∧ s.sameBut { pc := true } t)

/-- R183. LD Vx, DT writes DT, before the tick of the cycle, to V[X] and changes nothing else. -/
def Obligations.LdVxDtReadsTheDelayTimer : Prop :=
  ∀ (s : State) (x : Reg), ∃ t : State, exec (.ldVxDt x) s = .next t ∧
    t.readV x = s.dt ∧ s.sameBut { regs := [x] } t

/-- 44_input_timers.md section 2 (R184, R185). LD DT, Vx writes V[X] to DT and LD ST, Vx to ST,
and neither changes anything else. -/
def Obligations.TimerLoadsWriteTheTimers : Prop :=
  ∀ (s : State) (x : Reg),
    (∃ t : State, exec (.ldDtVx x) s = .next t ∧ t.dt = s.readV x ∧
      s.sameBut { dt := true } t) ∧
    (∃ t : State, exec (.ldStVx x) s = .next t ∧ t.st = s.readV x ∧
      s.sameBut { st := true } t)
end

