-- ==== Sys2Proof/Laws/Decode.lean ====
section
/-! SUPPORT. Laws of decoding: the fields of a word of each format (spec/30_encoding.md R61, R63), its
masked bits (R65), and the family it is dispatched to (R64). -/

namespace Sys2Proof.Laws

theorem regOfBits_regBits (x : Reg) : regOfBits (regBits x) = x := rfl

theorem regBits_regOfBits (b : BitVec 4) : regBits (regOfBits b) = b := rfl

/-! ### Fields of an encoded word -/

@[simp] theorem fieldOp_wordNNN (op : BitVec 4) (nnn : BitVec 12) :
    fieldOp (wordNNN op nnn) = op := BitVec.extractLsb'_append_eq_left

@[simp] theorem fieldNNN_wordNNN (op : BitVec 4) (nnn : BitVec 12) :
    fieldNNN (wordNNN op nnn) = nnn := BitVec.extractLsb'_append_eq_right

@[simp] theorem fieldOp_wordXKK (op : BitVec 4) (x : Reg) (kk : Byte) :
    fieldOp (wordXKK op x kk) = op := fieldOp_wordNNN op (regBits x ++ kk)

@[simp] theorem fieldX_wordXKK (op : BitVec 4) (x : Reg) (kk : Byte) :
    fieldX (wordXKK op x kk) = x :=
  congrArg regOfBits <| (BitVec.extractLsb'_append_eq_of_add_le (xhi := op)
    (xlo := regBits x ++ kk) (start := 8) (len := 4) (by decide)).trans
    BitVec.extractLsb'_append_eq_left

@[simp] theorem fieldKK_wordXKK (op : BitVec 4) (x : Reg) (kk : Byte) :
    fieldKK (wordXKK op x kk) = kk :=
  (BitVec.extractLsb'_append_eq_of_add_le (xhi := op) (xlo := regBits x ++ kk) (start := 0)
    (len := 8) (by decide)).trans BitVec.extractLsb'_append_eq_right

theorem wordXYN_eq (op : BitVec 4) (x y : Reg) (n : BitVec 4) :
    wordXYN op x y n = wordXKK op x (regBits y ++ n) := rfl

@[simp] theorem fieldOp_wordXYN (op : BitVec 4) (x y : Reg) (n : BitVec 4) :
    fieldOp (wordXYN op x y n) = op := fieldOp_wordXKK op x (regBits y ++ n)

@[simp] theorem fieldX_wordXYN (op : BitVec 4) (x y : Reg) (n : BitVec 4) :
    fieldX (wordXYN op x y n) = x := fieldX_wordXKK op x (regBits y ++ n)

/-- Y and N are the two halves of KK (R61). -/
theorem fieldY_eq (w : Opcode) : fieldY w = regOfBits ((fieldKK w).extractLsb' 4 4) := by
  unfold fieldY fieldKK
  congr 1
  ext i hi
  simp only [BitVec.getElem_extractLsb', BitVec.getLsbD_extractLsb']
  simp [show 4 + i < 8 by omega]

theorem fieldN_eq (w : Opcode) : fieldN w = (fieldKK w).extractLsb' 0 4 := by
  unfold fieldN fieldKK
  ext i hi
  simp only [BitVec.getElem_extractLsb', BitVec.getLsbD_extractLsb']
  simp [show i < 8 by omega]

@[simp] theorem fieldY_wordXYN (op : BitVec 4) (x y : Reg) (n : BitVec 4) :
    fieldY (wordXYN op x y n) = y := by
  rw [fieldY_eq, wordXYN_eq, fieldKK_wordXKK]
  exact congrArg regOfBits (BitVec.extractLsb'_append_eq_left (a := regBits y) (b := n))

@[simp] theorem fieldN_wordXYN (op : BitVec 4) (x y : Reg) (n : BitVec 4) :
    fieldN (wordXYN op x y n) = n := by
  rw [fieldN_eq, wordXYN_eq, fieldKK_wordXKK]
  exact BitVec.extractLsb'_append_eq_right (a := regBits y) (b := n)

/-! ### A word is its fields -/

/-- Every word is its family and its low 12 bits. -/
theorem word_eq_NNN (w : Opcode) : w = wordNNN (fieldOp w) (fieldNNN w) := by
  apply BitVec.eq_of_toNat_eq
  simp only [wordNNN, fieldOp, fieldNNN, BitVec.toNat_append, BitVec.extractLsb'_toNat]
  have := w.isLt
  rw [Nat.shiftRight_zero, Nat.shiftLeft_eq, Nat.shiftRight_eq_div_pow,
    Nat.mul_comm, ← Nat.two_pow_add_eq_or_of_lt (Nat.mod_lt _ (by decide))]
  omega

/-- The low 12 bits are X and KK. -/
theorem word_eq_XKK (w : Opcode) : w = wordXKK (fieldOp w) (fieldX w) (fieldKK w) := by
  apply BitVec.eq_of_toNat_eq
  simp only [wordXKK, fieldOp, fieldX, fieldKK, regBits_regOfBits, BitVec.toNat_append,
    BitVec.extractLsb'_toNat]
  have := w.isLt
  have hlt : 2 ^ 8 * (w.toNat >>> 8 % 2 ^ 4) + w.toNat >>> 0 % 2 ^ 8 < 2 ^ 12 := by omega
  rw [Nat.shiftLeft_eq (_ % 2 ^ 4) 8, Nat.mul_comm _ (2 ^ 8),
    ← Nat.two_pow_add_eq_or_of_lt (Nat.mod_lt _ (by decide))]
  rw [Nat.shiftLeft_eq, Nat.mul_comm _ (2 ^ _), ← Nat.two_pow_add_eq_or_of_lt hlt]
  simp only [Nat.shiftRight_eq_div_pow]
  omega

/-! ### Masked words (R65) -/

/-- A family mask keeps the family. -/
theorem mask_wordNNN (op : BitVec 4) (nnn : BitVec 12) :
    wordNNN op nnn &&& 0xF000#16 = wordNNN op 0 := by
  have h : wordNNN op nnn &&& wordNNN 0xF#4 0#12 = wordNNN (op &&& 0xF#4) (nnn &&& 0#12) :=
    BitVec.and_append
  rw [show (0xF#4 : BitVec 4) = BitVec.allOnes 4 from rfl, BitVec.and_allOnes,
    BitVec.and_zero] at h
  exact h

theorem mask_wordXKK (op : BitVec 4) (x : Reg) (kk : Byte) :
    wordXKK op x kk &&& 0xF0FF#16 = wordXKK op 0 kk := by
  have h : wordXKK op x kk &&& wordXKK 0xF#4 0 0xFF#8 =
      wordNNN (op &&& 0xF#4) ((regBits x ++ kk) &&& (regBits 0 ++ 0xFF#8)) := BitVec.and_append
  have h2 : (regBits x ++ kk) &&& (regBits 0 ++ 0xFF#8) =
      (regBits x &&& regBits 0) ++ (kk &&& 0xFF#8) := BitVec.and_append
  rw [h2, show (0xF#4 : BitVec 4) = BitVec.allOnes 4 from rfl,
    show (0xFF#8 : BitVec 8) = BitVec.allOnes 8 from rfl, BitVec.and_allOnes,
    BitVec.and_allOnes, show regBits 0 = 0#4 from rfl, BitVec.and_zero] at h
  exact h

theorem mask_wordXYN (op : BitVec 4) (x y : Reg) (n : BitVec 4) :
    wordXYN op x y n &&& 0xF00F#16 = wordXYN op 0 0 n := by
  have h : wordXYN op x y n &&& wordXYN 0xF#4 0 0 0xF#4 =
      wordNNN (op &&& 0xF#4)
        ((regBits x ++ (regBits y ++ n)) &&& (regBits 0 ++ (regBits 0 ++ 0xF#4))) :=
    BitVec.and_append
  have h2 : (regBits x ++ (regBits y ++ n)) &&& (regBits 0 ++ (regBits 0 ++ 0xF#4)) =
      (regBits x &&& regBits 0) ++ ((regBits y ++ n) &&& (regBits 0 ++ 0xF#4)) :=
    BitVec.and_append
  have h3 : (regBits y ++ n) &&& (regBits 0 ++ 0xF#4) =
      (regBits y &&& regBits 0) ++ (n &&& 0xF#4) := BitVec.and_append
  rw [h2, h3, show (0xF#4 : BitVec 4) = BitVec.allOnes 4 from rfl, BitVec.and_allOnes,
    BitVec.and_allOnes, show regBits 0 = 0#4 from rfl, BitVec.and_zero, BitVec.and_zero] at h
  exact h

/-! ### Bytes of a word (R43) -/

theorem wordOfBytes_split (w : Opcode) : wordOfBytes (wordHi w) (wordLo w) = w := by
  apply BitVec.eq_of_toNat_eq
  simp only [wordOfBytes, wordHi, wordLo, BitVec.toNat_append, BitVec.extractLsb'_toNat]
  have := w.isLt
  rw [Nat.shiftRight_zero, Nat.shiftLeft_eq, Nat.shiftRight_eq_div_pow,
    Nat.mul_comm, ← Nat.two_pow_add_eq_or_of_lt (Nat.mod_lt _ (by decide))]
  omega

@[simp] theorem wordHi_wordOfBytes (hi lo : Byte) : wordHi (wordOfBytes hi lo) = hi :=
  BitVec.extractLsb'_append_eq_left

@[simp] theorem wordLo_wordOfBytes (hi lo : Byte) : wordLo (wordOfBytes hi lo) = lo :=
  BitVec.extractLsb'_append_eq_right

end Sys2Proof.Laws
end

