-- ==== Sys2Proof/Laws/Grid.lean ====
section
/-! SUPPORT. Laws of the pixel grid: one pixel after a write, after a sprite row and after a sprite. -/

namespace Sys2Proof.Laws

open Sys2Proof.Machine

@[simp] theorem clear_pixel (y : Fin 32) (x : Fin 64) : Grid.clear.pixel y x = false := by
  simp [Grid.clear, Grid.pixel, Vector.get_eq_getElem]

theorem setPixel_pixel (g : Grid) (y : Fin 32) (x : Fin 64) (b : Bool) (y' : Fin 32)
    (x' : Fin 64) :
    (g.setPixel y x b).pixel y' x' = if y' = y ∧ x' = x then b else g.pixel y' x' := by
  simp only [Grid.setPixel, Grid.pixel, Vector.get_eq_getElem, Vector.getElem_set, Fin.ext_iff]
  by_cases hy : y.val = y'.val
  · simp only [hy, if_true, true_and]
    by_cases hx : x.val = x'.val
    · simp [hx]
    · simp [hx, Ne.symm hx]
  · simp [hy, Ne.symm hy]

/-- Two grids with the same pixels are the same grid. -/
theorem grid_ext {g h : Grid} (e : ∀ y x, g.pixel y x = h.pixel y x) : g = h := by
  apply Vector.ext
  intro y hy
  apply Vector.ext
  intro x hx
  have := e ⟨y, hy⟩ ⟨x, hx⟩
  simpa [Grid.pixel, Vector.get_eq_getElem] using this

theorem toggle_pixel (d : Canvas) (y : Fin 32) (x : Fin 64) (y' : Fin 32) (x' : Fin 64) :
    (d.toggle y x).grid.pixel y' x' = (d.grid.pixel y' x' ^^ (decide (y' = y ∧ x' = x))) := by
  simp only [Canvas.toggle, setPixel_pixel]
  by_cases h : y' = y ∧ x' = x
  · obtain ⟨rfl, rfl⟩ := h; simp
  · simp [h]

/-- The columns below k of one sprite row that fall on a pixel. -/
def rowCovers (xs y : Nat) (b : Byte) (k : Nat) (y' : Fin 32) (x' : Fin 64) : Bool :=
  (List.range k).any fun c => spriteBit b c && y % 32 == y'.val && (xs + c) % 64 == x'.val

theorem rowCovers_succ (xs y : Nat) (b : Byte) (k : Nat) (y' : Fin 32) (x' : Fin 64) :
    rowCovers xs y b (k + 1) y' x' = (rowCovers xs y b k y' x' ||
      (spriteBit b k && y % 32 == y'.val && (xs + k) % 64 == x'.val)) := by
  simp [rowCovers, List.range_succ, List.any_append]

theorem rowCovers_iff {xs y : Nat} {b : Byte} {k : Nat} {y' : Fin 32} {x' : Fin 64} :
    rowCovers xs y b k y' x' = true ↔
      ∃ c < k, spriteBit b c = true ∧ y % 32 = y'.val ∧ (xs + c) % 64 = x'.val := by
  simp [rowCovers, and_assoc]

theorem wrap_eq_iff (y xs : Nat) (y' : Fin 32) (x' : Fin 64) :
    (y' = wrapRow y ∧ x' = wrapColumn xs) ↔ (y % 32 = y'.val ∧ xs % 64 = x'.val) := by
  simp only [Fin.ext_iff, wrapRow, wrapColumn, Fin.ofNat]
  omega

/-- One pixel, and the collision, after the first k columns of a sprite row (R142): 8 columns never
reach the same pixel twice. -/
theorem drawColumns (xs y : Nat) (b : Byte) (d : Canvas) (k : Nat) (hk : k ≤ 64) :
    (∀ y' x', ((List.range k).foldl (Canvas.drawColumn xs y b) d).grid.pixel y' x' =
      (d.grid.pixel y' x' ^^ rowCovers xs y b k y' x')) ∧
    (((List.range k).foldl (Canvas.drawColumn xs y b) d).hit = true ↔
      d.hit = true ∨ ∃ y' x', rowCovers xs y b k y' x' = true ∧ d.grid.pixel y' x' = true) := by
  induction k with
  | zero => simp [rowCovers]
  | succ k ih =>
    obtain ⟨ihp, ihh⟩ := ih (by omega)
    simp only [List.range_succ, List.foldl_append, List.foldl_cons, List.foldl_nil]
    generalize hD : (List.range k).foldl (Canvas.drawColumn xs y b) d = D at *
    have fresh : rowCovers xs y b k (wrapRow y) (wrapColumn (xs + k)) = false := by
      rw [← Bool.not_eq_true, rowCovers_iff]
      rintro ⟨c, hc, -, -, hx⟩
      simp only [wrapColumn, Fin.ofNat] at hx
      omega
    have last : ∀ y' x', (decide (y' = wrapRow y ∧ x' = wrapColumn (xs + k))) =
        (y % 32 == y'.val && (xs + k) % 64 == x'.val) := by
      intro y' x'
      rw [Bool.eq_iff_iff]
      simp [wrap_eq_iff]
    unfold Canvas.drawColumn
    cases hb : spriteBit b k with
    | false =>
      simp only [Bool.false_eq_true, if_false, rowCovers_succ, hb, Bool.false_and, Bool.or_false]
      exact ⟨ihp, ihh⟩
    | true =>
      simp only [if_true, rowCovers_succ, hb, Bool.true_and]
      constructor
      · intro y' x'
        rw [toggle_pixel, ihp, last]
        by_cases h : y' = wrapRow y ∧ x' = wrapColumn (xs + k)
        · obtain ⟨rfl, rfl⟩ := h
          simp [fresh]
        · rw [wrap_eq_iff] at h
          have : (y % 32 == y'.val && (xs + k) % 64 == x'.val) = false := by
            simpa using h
          simp [this]
      · have hp := ihp (wrapRow y) (wrapColumn (xs + k))
        rw [fresh, Bool.xor_false] at hp
        simp only [Canvas.toggle, Bool.or_eq_true, ihh, hp]
        constructor
        · rintro ((h | ⟨y', x', h1, h2⟩) | h)
          · exact .inl h
          · exact .inr ⟨y', x', .inl h1, h2⟩
          · refine .inr ⟨wrapRow y, wrapColumn (xs + k), .inr ?_, h⟩
            rw [← last]; simp
        · rintro (h | ⟨y', x', h1 | h1, h2⟩)
          · exact .inl (.inl h)
          · exact .inl (.inr ⟨y', x', h1, h2⟩)
          · rw [← last] at h1
            obtain ⟨rfl, rfl⟩ := of_decide_eq_true h1
            exact .inr h2

/-- The rows of a sprite that starts at row y and fall on a pixel. -/
def rowsCover (xs y : Nat) (bytes : List Byte) (y' : Fin 32) (x' : Fin 64) : Bool :=
  match bytes with
  | [] => false
  | b :: rest => rowCovers xs y b 8 y' x' || rowsCover xs (y + 1) rest y' x'

theorem rowsCover_row {xs y : Nat} {bytes : List Byte} {y' : Fin 32} {x' : Fin 64}
    (h : rowsCover xs y bytes y' x' = true) : ∃ r < bytes.length, (y + r) % 32 = y'.val := by
  induction bytes generalizing y with
  | nil => simp [rowsCover] at h
  | cons b rest ih =>
    simp only [rowsCover, Bool.or_eq_true] at h
    rcases h with h | h
    · obtain ⟨c, -, -, hy, -⟩ := rowCovers_iff.1 h
      exact ⟨0, by simp, by simpa using hy⟩
    · obtain ⟨r, hr, e⟩ := ih h
      exact ⟨r + 1, by simp; omega, by rw [← e]; congr 1; omega⟩

/-- One pixel, and the collision, after a whole sprite (R142): at most 32 rows never reach the same
pixel twice. -/
theorem drawRows (xs y : Nat) (bytes : List Byte) (d : Canvas) (hn : bytes.length ≤ 32) :
    (∀ y' x', (Canvas.drawRows xs y bytes d).grid.pixel y' x' =
      (d.grid.pixel y' x' ^^ rowsCover xs y bytes y' x')) ∧
    ((Canvas.drawRows xs y bytes d).hit = true ↔
      d.hit = true ∨ ∃ y' x', rowsCover xs y bytes y' x' = true ∧ d.grid.pixel y' x' = true) := by
  induction bytes generalizing y d with
  | nil => simp [Canvas.drawRows, rowsCover]
  | cons b rest ih =>
    simp only [List.length_cons] at hn
    obtain ⟨ihp, ihh⟩ := ih (y + 1) (d.drawRow xs y b) (by omega)
    obtain ⟨rp, rh⟩ := drawColumns xs y b d 8 (by omega)
    change ∀ y' x', (d.drawRow xs y b).grid.pixel y' x' = _ at rp
    change (d.drawRow xs y b).hit = true ↔ _ at rh
    have disjoint : ∀ y' x', rowsCover xs (y + 1) rest y' x' = true →
        rowCovers xs y b 8 y' x' = false := by
      intro y' x' h
      obtain ⟨r, hr, e⟩ := rowsCover_row h
      rw [← Bool.not_eq_true, rowCovers_iff]
      rintro ⟨c, -, -, hy, -⟩
      omega
    unfold Canvas.drawRows
    constructor
    · intro y' x'
      rw [ihp, rp, rowsCover]
      cases h : rowsCover xs (y + 1) rest y' x'
      · simp
      · simp [disjoint y' x' h]
    · rw [ihh, rh]
      simp only [rowsCover, Bool.or_eq_true]
      constructor
      · rintro ((h | ⟨y', x', h1, h2⟩) | ⟨y', x', h1, h2⟩)
        · exact .inl h
        · exact .inr ⟨y', x', .inl h1, h2⟩
        · rw [rp, disjoint y' x' h1, Bool.xor_false] at h2
          exact .inr ⟨y', x', .inr h1, h2⟩
      · rintro (h | ⟨y', x', h1 | h1, h2⟩)
        · exact .inl (.inl h)
        · exact .inl (.inr ⟨y', x', h1, h2⟩)
        · exact .inr ⟨y', x', h1, by rw [rp, disjoint y' x' h1, Bool.xor_false]; exact h2⟩

/-- The rows a sprite covers, as `spriteCovers` says it. -/
theorem rowsCover_eq (xs ys : Nat) (row : Nat → Byte) (n : Nat) (y' : Fin 32) (x' : Fin 64) :
    rowsCover xs ys ((List.range n).map row) y' x' = spriteCovers row n xs ys y' x' := by
  induction n generalizing ys row with
  | zero => simp [rowsCover, spriteCovers]
  | succ n ih =>
    rw [List.range_succ_eq_map, List.map_cons, List.map_map]
    unfold rowsCover
    rw [show (row ∘ Nat.succ) = fun r => row (r + 1) from rfl, ih]
    simp only [spriteCovers, List.range_succ_eq_map (n := n), List.any_cons, List.any_map,
      Nat.add_zero]
    congr 1
    congr 1
    funext r
    simp only [Function.comp_apply, Nat.succ_eq_add_one]
    rw [show ys + 1 + r = ys + (r + 1) by omega]

/-- DRAWING A SPRITE: each pixel is flipped exactly when the sprite covers it, and there is a collision
exactly when a covered pixel was set (R142). -/
theorem drawSprite (g : Grid) (xs ys : Nat) (row : Nat → Byte) (n : Nat) (hn : n ≤ 32) :
    (∀ y x, (g.drawSprite xs ys ((List.range n).map row)).grid.pixel y x =
      (g.pixel y x ^^ spriteCovers row n xs ys y x)) ∧
    ((g.drawSprite xs ys ((List.range n).map row)).hit = true ↔
      ∃ y x, spriteCovers row n xs ys y x = true ∧ g.pixel y x = true) := by
  obtain ⟨hp, hh⟩ := drawRows xs ys ((List.range n).map row) ⟨g, false⟩ (by simpa using hn)
  simp only [rowsCover_eq] at hp hh
  exact ⟨hp, by simpa [Grid.drawSprite] using hh⟩

end Sys2Proof.Laws
end

