-- ==== Sys2Proof/Laws/Memory.lean ====
section
/-! SUPPORT. Laws of memory: the canonical form is kept by every memory operation, a read after a write
gives the written byte, and a write leaves every other address alone. -/

namespace Sys2Proof.Laws

open Sys2Proof.Machine

theorem memory_read_nil (font : Font) (a : Nat) :
    Memory.read [] font a = Memory.initial font a := rfl

theorem memory_read_cons (font : Font) (k : Nat) (b : Byte) (rest : Memory) (a : Nat) :
    Memory.read ((k, b) :: rest) font a = if a = k then b else Memory.read rest font a := rfl

theorem memory_wf_nil (font : Font) : Memory.wf font [] := by
  constructor <;> simp

/-- A canonical list splits into its first cell and a canonical rest above it. -/
theorem memory_wf_cons {font : Font} {k : Nat} {b : Byte} {rest : Memory} :
    Memory.wf font ((k, b) :: rest) ↔
      (∀ c ∈ rest, k < c.1) ∧ k < memorySize ∧ b ≠ Memory.initial font k ∧
        Memory.wf font rest := by
  simp only [Memory.wf, List.pairwise_cons, List.mem_cons, forall_eq_or_imp]
  tauto

/-- An address that no cell lists reads as the reset contents. -/
theorem memory_read_unlisted {font : Font} {m : Memory} {a : Nat} (h : ∀ c ∈ m, c.1 ≠ a) :
    m.read font a = Memory.initial font a := by
  induction m with
  | nil => rfl
  | cons c rest ih =>
    obtain ⟨k, b⟩ := c
    have hk : a ≠ k := fun e => h (k, b) (by simp) e.symm
    rw [memory_read_cons, if_neg hk]
    exact ih fun c hc => h c (by simp [hc])

/-- What `Memory.cons` reads as. -/
theorem memory_read_cons' {font : Font} {a : Nat} {b : Byte} {rest : Memory}
    (h : ∀ c ∈ rest, c.1 ≠ a) (x : Nat) :
    (Memory.cons font a b rest).read font x = if x = a then b else rest.read font x := by
  unfold Memory.cons
  split
  · next hb =>
    split
    · next hx => subst hx; rw [memory_read_unlisted h, hb]
    · rfl
  · rfl

/-- `Memory.cons` keeps the canonical form. -/
theorem memory_wf_cons' {font : Font} {a : Nat} {b : Byte} {rest : Memory}
    (ha : a < memorySize) (h : ∀ c ∈ rest, a < c.1) (hw : Memory.wf font rest) :
    Memory.wf font (Memory.cons font a b rest) := by
  unfold Memory.cons
  split
  · exact hw
  · next hb => exact memory_wf_cons.2 ⟨h, ha, hb, hw⟩

/-- Every cell of a written list is an old one or the written one. -/
theorem memory_write_mem {font : Font} {m : Memory} {a : Nat} {b : Byte} {c : Host.Cell}
    (h : c ∈ m.write font a b) : c ∈ m ∨ c = (a, b) := by
  induction m with
  | nil =>
    unfold Memory.write Memory.cons at h
    split at h <;> simp_all
  | cons d rest ih =>
    obtain ⟨k, e⟩ := d
    unfold Memory.write Memory.cons at h
    split at h
    · split at h
      · exact .inl h
      · rcases List.mem_cons.1 h with h | h
        · exact .inr h
        · exact .inl h
    · split at h
      · split at h
        · exact .inl (by simp [h])
        · rcases List.mem_cons.1 h with h | h
          · exact .inr h
          · exact .inl (by simp [h])
      · rcases List.mem_cons.1 h with h | h
        · exact .inl (by simp [h])
        · exact (ih h).imp (fun h => by simp [h]) id

/-- A write keeps the canonical form. -/
theorem memory_write_wf {font : Font} {m : Memory} {a : Nat} {b : Byte}
    (ha : a < memorySize) (hw : Memory.wf font m) : Memory.wf font (m.write font a b) := by
  induction m with
  | nil => exact memory_wf_cons' ha (by simp) hw
  | cons d rest ih =>
    obtain ⟨k, e⟩ := d
    obtain ⟨hk, hks, he, hr⟩ := memory_wf_cons.1 hw
    unfold Memory.write
    split
    · next hak =>
      refine memory_wf_cons' ha ?_ hw
      simp only [List.mem_cons, forall_eq_or_imp]
      exact ⟨hak, fun c hc => hak.trans (hk c hc)⟩
    · split
      · next hak => subst hak; exact memory_wf_cons' ha hk hr
      · next hlt hne =>
        refine memory_wf_cons.2 ⟨fun c hc => ?_, hks, he, ih hr⟩
        rcases memory_write_mem hc with h | h
        · exact hk c h
        · subst h; simp only; omega

/-- READ AFTER WRITE: the written address reads as the written byte, every other as before. -/
theorem memory_read_write {font : Font} {m : Memory} (hw : Memory.wf font m) (a : Nat) (b : Byte)
    (x : Nat) : (m.write font a b).read font x = if x = a then b else m.read font x := by
  induction m with
  | nil => exact memory_read_cons' (by simp) x
  | cons d rest ih =>
    obtain ⟨k, e⟩ := d
    obtain ⟨hk, -, -, hr⟩ := memory_wf_cons.1 hw
    unfold Memory.write
    split
    · next hak =>
      refine memory_read_cons' ?_ x
      simp only [List.mem_cons, forall_eq_or_imp]
      exact ⟨by omega, fun c hc => by have := hk c hc; omega⟩
    · split
      · next hak =>
        subst hak
        rw [memory_read_cons' fun c hc => by have := hk c hc; omega, memory_read_cons]
        split <;> simp_all
      · next hlt hne =>
        rw [memory_read_cons, memory_read_cons, ih hr]
        split <;> split <;> first | rfl | omega

/-- The cells of a canonical list of given bytes lie in its range. -/
theorem memory_cellsFrom_mem {font : Font} {byte : Nat → Byte} {a n : Nat} {c : Host.Cell}
    (h : c ∈ Memory.cellsFrom font byte a n) : a ≤ c.1 ∧ c.1 < a + n := by
  induction n generalizing a with
  | zero => simp [Memory.cellsFrom] at h
  | succ n ih =>
    unfold Memory.cellsFrom Memory.cons at h
    split at h
    · have := ih h; omega
    · rcases List.mem_cons.1 h with rfl | h
      · simp
      · have := ih h; omega

/-- The canonical list of given bytes is canonical. -/
theorem memory_cellsFrom_wf (font : Font) (byte : Nat → Byte) (a n : Nat)
    (h : a + n ≤ memorySize) : Memory.wf font (Memory.cellsFrom font byte a n) := by
  induction n generalizing a with
  | zero => exact memory_wf_nil font
  | succ n ih =>
    refine memory_wf_cons' (by omega) (fun c hc => ?_) (ih (a + 1) (by omega))
    have := memory_cellsFrom_mem hc
    omega

/-- The canonical list of given bytes reads as those bytes. -/
theorem memory_read_cellsFrom (font : Font) (byte : Nat → Byte) (a n x : Nat) :
    (Memory.cellsFrom font byte a n).read font x =
      if a ≤ x ∧ x < a + n then byte x else Memory.initial font x := by
  induction n generalizing a with
  | zero => rw [if_neg (by omega)]; rfl
  | succ n ih =>
    unfold Memory.cellsFrom
    rw [memory_read_cons' fun c hc => by have := memory_cellsFrom_mem hc; omega, ih]
    by_cases hx : x = a
    · subst hx; rw [if_pos rfl, if_pos (by omega)]
    · rw [if_neg hx]
      by_cases h : a + 1 ≤ x ∧ x < a + 1 + n
      · rw [if_pos h, if_pos (by omega)]
      · rw [if_neg h, if_neg (by omega)]

theorem memory_ofBytes_wf (font : Font) (bytes : Vector Byte 4096) :
    Memory.wf font (Memory.ofBytes font bytes) :=
  memory_cellsFrom_wf font _ 0 4096 (by decide)

/-- The canonical list of 4096 bytes reads as those bytes: no memory contents are shut out. -/
theorem memory_read_ofBytes (font : Font) (bytes : Vector Byte 4096) (a : Fin 4096) :
    (Memory.ofBytes font bytes).read font a.val = bytes.get a := by
  unfold Memory.ofBytes
  rw [memory_read_cellsFrom, if_pos (by omega), dif_pos a.isLt]
  rfl

end Sys2Proof.Laws
end

