-- ==== Sys2Proof/Laws/State.lean ====
section
/-! SUPPORT. Laws of State: one lemma per field per update, so that no proof unfolds a record update.
An update with no lemma for a field is one that writes that field. -/

namespace Sys2Proof.Laws

open Sys2Proof.Machine

/-! ### writeV -/

@[simp] theorem writeV_i (s : State) (x : Reg) (b : Byte) :
    (s.writeV x b).i = s.i := rfl

@[simp] theorem writeV_pc (s : State) (x : Reg) (b : Byte) :
    (s.writeV x b).pc = s.pc := rfl

@[simp] theorem writeV_sp (s : State) (x : Reg) (b : Byte) :
    (s.writeV x b).sp = s.sp := rfl

@[simp] theorem writeV_stack (s : State) (x : Reg) (b : Byte) :
    (s.writeV x b).stack = s.stack := rfl

@[simp] theorem writeV_dt (s : State) (x : Reg) (b : Byte) :
    (s.writeV x b).dt = s.dt := rfl

@[simp] theorem writeV_st (s : State) (x : Reg) (b : Byte) :
    (s.writeV x b).st = s.st := rfl

@[simp] theorem writeV_grid (s : State) (x : Reg) (b : Byte) :
    (s.writeV x b).grid = s.grid := rfl

@[simp] theorem writeV_changed (s : State) (x : Reg) (b : Byte) :
    (s.writeV x b).changed = s.changed := rfl

@[simp] theorem writeV_fault (s : State) (x : Reg) (b : Byte) :
    (s.writeV x b).fault = s.fault := rfl

@[simp] theorem writeV_mem (s : State) (x : Reg) (b : Byte) :
    (s.writeV x b).mem = s.mem := rfl

@[simp] theorem writeV_params (s : State) (x : Reg) (b : Byte) :
    (s.writeV x b).params = s.params := rfl

@[simp] theorem writeV_inputs (s : State) (x : Reg) (b : Byte) :
    (s.writeV x b).inputs = s.inputs := rfl

@[simp] theorem writeV_cycle (s : State) (x : Reg) (b : Byte) :
    (s.writeV x b).cycle = s.cycle := rfl

/-! ### clearVF -/

@[simp] theorem clearVF_i (s : State) :
    (s.clearVF).i = s.i := rfl

@[simp] theorem clearVF_pc (s : State) :
    (s.clearVF).pc = s.pc := rfl

@[simp] theorem clearVF_sp (s : State) :
    (s.clearVF).sp = s.sp := rfl

@[simp] theorem clearVF_stack (s : State) :
    (s.clearVF).stack = s.stack := rfl

@[simp] theorem clearVF_dt (s : State) :
    (s.clearVF).dt = s.dt := rfl

@[simp] theorem clearVF_st (s : State) :
    (s.clearVF).st = s.st := rfl

@[simp] theorem clearVF_grid (s : State) :
    (s.clearVF).grid = s.grid := rfl

@[simp] theorem clearVF_changed (s : State) :
    (s.clearVF).changed = s.changed := rfl

@[simp] theorem clearVF_fault (s : State) :
    (s.clearVF).fault = s.fault := rfl

@[simp] theorem clearVF_mem (s : State) :
    (s.clearVF).mem = s.mem := rfl

@[simp] theorem clearVF_params (s : State) :
    (s.clearVF).params = s.params := rfl

@[simp] theorem clearVF_inputs (s : State) :
    (s.clearVF).inputs = s.inputs := rfl

@[simp] theorem clearVF_cycle (s : State) :
    (s.clearVF).cycle = s.cycle := rfl

/-! ### jumpTo -/

@[simp] theorem jumpTo_i (s : State) (a : Addr) :
    (s.jumpTo a).i = s.i := rfl

@[simp] theorem jumpTo_pc (s : State) (a : Addr) :
    (s.jumpTo a).pc = a := rfl

@[simp] theorem jumpTo_sp (s : State) (a : Addr) :
    (s.jumpTo a).sp = s.sp := rfl

@[simp] theorem jumpTo_stack (s : State) (a : Addr) :
    (s.jumpTo a).stack = s.stack := rfl

@[simp] theorem jumpTo_dt (s : State) (a : Addr) :
    (s.jumpTo a).dt = s.dt := rfl

@[simp] theorem jumpTo_st (s : State) (a : Addr) :
    (s.jumpTo a).st = s.st := rfl

@[simp] theorem jumpTo_grid (s : State) (a : Addr) :
    (s.jumpTo a).grid = s.grid := rfl

@[simp] theorem jumpTo_changed (s : State) (a : Addr) :
    (s.jumpTo a).changed = s.changed := rfl

@[simp] theorem jumpTo_fault (s : State) (a : Addr) :
    (s.jumpTo a).fault = s.fault := rfl

@[simp] theorem jumpTo_mem (s : State) (a : Addr) :
    (s.jumpTo a).mem = s.mem := rfl

@[simp] theorem jumpTo_params (s : State) (a : Addr) :
    (s.jumpTo a).params = s.params := rfl

@[simp] theorem jumpTo_inputs (s : State) (a : Addr) :
    (s.jumpTo a).inputs = s.inputs := rfl

@[simp] theorem jumpTo_cycle (s : State) (a : Addr) :
    (s.jumpTo a).cycle = s.cycle := rfl

@[simp] theorem jumpTo_v (s : State) (a : Addr) :
    (s.jumpTo a).v = s.v := rfl

@[simp] theorem jumpTo_readV (s : State) (a : Addr) (r : Reg) :
    (s.jumpTo a).readV r = s.readV r := rfl

/-! ### poke -/

@[simp] theorem poke_i (s : State) (a : Nat) (b : Byte) :
    (s.poke a b).i = s.i := rfl

@[simp] theorem poke_pc (s : State) (a : Nat) (b : Byte) :
    (s.poke a b).pc = s.pc := rfl

@[simp] theorem poke_sp (s : State) (a : Nat) (b : Byte) :
    (s.poke a b).sp = s.sp := rfl

@[simp] theorem poke_stack (s : State) (a : Nat) (b : Byte) :
    (s.poke a b).stack = s.stack := rfl

@[simp] theorem poke_dt (s : State) (a : Nat) (b : Byte) :
    (s.poke a b).dt = s.dt := rfl

@[simp] theorem poke_st (s : State) (a : Nat) (b : Byte) :
    (s.poke a b).st = s.st := rfl

@[simp] theorem poke_grid (s : State) (a : Nat) (b : Byte) :
    (s.poke a b).grid = s.grid := rfl

@[simp] theorem poke_changed (s : State) (a : Nat) (b : Byte) :
    (s.poke a b).changed = s.changed := rfl

@[simp] theorem poke_fault (s : State) (a : Nat) (b : Byte) :
    (s.poke a b).fault = s.fault := rfl

@[simp] theorem poke_mem (s : State) (a : Nat) (b : Byte) :
    (s.poke a b).mem = s.mem.write s.params.font a b := rfl

@[simp] theorem poke_params (s : State) (a : Nat) (b : Byte) :
    (s.poke a b).params = s.params := rfl

@[simp] theorem poke_inputs (s : State) (a : Nat) (b : Byte) :
    (s.poke a b).inputs = s.inputs := rfl

@[simp] theorem poke_cycle (s : State) (a : Nat) (b : Byte) :
    (s.poke a b).cycle = s.cycle := rfl

@[simp] theorem poke_v (s : State) (a : Nat) (b : Byte) :
    (s.poke a b).v = s.v := rfl

@[simp] theorem poke_readV (s : State) (a : Nat) (b : Byte) (r : Reg) :
    (s.poke a b).readV r = s.readV r := rfl

/-! ### advancePc -/

@[simp] theorem advancePc_i (s : State) :
    (s.advancePc).i = s.i := rfl

@[simp] theorem advancePc_pc (s : State) :
    (s.advancePc).pc = s.pc + 2 := rfl

@[simp] theorem advancePc_sp (s : State) :
    (s.advancePc).sp = s.sp := rfl

@[simp] theorem advancePc_stack (s : State) :
    (s.advancePc).stack = s.stack := rfl

@[simp] theorem advancePc_dt (s : State) :
    (s.advancePc).dt = s.dt := rfl

@[simp] theorem advancePc_st (s : State) :
    (s.advancePc).st = s.st := rfl

@[simp] theorem advancePc_grid (s : State) :
    (s.advancePc).grid = s.grid := rfl

@[simp] theorem advancePc_changed (s : State) :
    (s.advancePc).changed = s.changed := rfl

@[simp] theorem advancePc_fault (s : State) :
    (s.advancePc).fault = s.fault := rfl

@[simp] theorem advancePc_mem (s : State) :
    (s.advancePc).mem = s.mem := rfl

@[simp] theorem advancePc_params (s : State) :
    (s.advancePc).params = s.params := rfl

@[simp] theorem advancePc_inputs (s : State) :
    (s.advancePc).inputs = s.inputs := rfl

@[simp] theorem advancePc_cycle (s : State) :
    (s.advancePc).cycle = s.cycle := rfl

@[simp] theorem advancePc_v (s : State) :
    (s.advancePc).v = s.v := rfl

@[simp] theorem advancePc_readV (s : State) (r : Reg) :
    (s.advancePc).readV r = s.readV r := rfl

/-! ### tick -/

@[simp] theorem tick_i (s : State) :
    (s.tick).i = s.i := rfl

@[simp] theorem tick_pc (s : State) :
    (s.tick).pc = s.pc := rfl

@[simp] theorem tick_sp (s : State) :
    (s.tick).sp = s.sp := rfl

@[simp] theorem tick_stack (s : State) :
    (s.tick).stack = s.stack := rfl

@[simp] theorem tick_dt (s : State) :
    (s.tick).dt = tickDown s.dt := rfl

@[simp] theorem tick_st (s : State) :
    (s.tick).st = tickDown s.st := rfl

@[simp] theorem tick_grid (s : State) :
    (s.tick).grid = s.grid := rfl

@[simp] theorem tick_changed (s : State) :
    (s.tick).changed = s.changed := rfl

@[simp] theorem tick_fault (s : State) :
    (s.tick).fault = s.fault := rfl

@[simp] theorem tick_mem (s : State) :
    (s.tick).mem = s.mem := rfl

@[simp] theorem tick_params (s : State) :
    (s.tick).params = s.params := rfl

@[simp] theorem tick_inputs (s : State) :
    (s.tick).inputs = s.inputs := rfl

@[simp] theorem tick_cycle (s : State) :
    (s.tick).cycle = s.cycle := rfl

@[simp] theorem tick_v (s : State) :
    (s.tick).v = s.v := rfl

@[simp] theorem tick_readV (s : State) (r : Reg) :
    (s.tick).readV r = s.readV r := rfl

/-! ### nextInput -/

@[simp] theorem nextInput_i (s : State) :
    (s.nextInput).i = s.i := rfl

@[simp] theorem nextInput_pc (s : State) :
    (s.nextInput).pc = s.pc := rfl

@[simp] theorem nextInput_sp (s : State) :
    (s.nextInput).sp = s.sp := rfl

@[simp] theorem nextInput_stack (s : State) :
    (s.nextInput).stack = s.stack := rfl

@[simp] theorem nextInput_dt (s : State) :
    (s.nextInput).dt = s.dt := rfl

@[simp] theorem nextInput_st (s : State) :
    (s.nextInput).st = s.st := rfl

@[simp] theorem nextInput_grid (s : State) :
    (s.nextInput).grid = s.grid := rfl

@[simp] theorem nextInput_changed (s : State) :
    (s.nextInput).changed = s.changed := rfl

@[simp] theorem nextInput_fault (s : State) :
    (s.nextInput).fault = s.fault := rfl

@[simp] theorem nextInput_mem (s : State) :
    (s.nextInput).mem = s.mem := rfl

@[simp] theorem nextInput_params (s : State) :
    (s.nextInput).params = s.params := rfl

@[simp] theorem nextInput_inputs (s : State) :
    (s.nextInput).inputs = s.inputs.tail := rfl

@[simp] theorem nextInput_cycle (s : State) :
    (s.nextInput).cycle = s.cycle + 1 := rfl

@[simp] theorem nextInput_v (s : State) :
    (s.nextInput).v = s.v := rfl

@[simp] theorem nextInput_readV (s : State) (r : Reg) :
    (s.nextInput).readV r = s.readV r := rfl

/-! ### takeFault -/

@[simp] theorem takeFault_fault (s : State) (a : Addr) (c : FaultCause) :
    (s.takeFault a c).fault = some { cause := c, fpc := a } := rfl

@[simp] theorem takeFault_mem (s : State) (a : Addr) (c : FaultCause) :
    (s.takeFault a c).mem = Memory.ofBytes s.params.font (Config.leftByFault s).bytes := by
  simp only [State.takeFault]

@[simp] theorem takeFault_params (s : State) (a : Addr) (c : FaultCause) :
    (s.takeFault a c).params = s.params := rfl

@[simp] theorem takeFault_inputs (s : State) (a : Addr) (c : FaultCause) :
    (s.takeFault a c).inputs = s.inputs := rfl

@[simp] theorem takeFault_cycle (s : State) (a : Addr) (c : FaultCause) :
    (s.takeFault a c).cycle = s.cycle := rfl

/-! ### raise -/

@[simp] theorem raise_fault (s : State) (c : FaultCause) :
    (s.raise c).fault = some { cause := c, fpc := s.pc - 2 } := rfl

@[simp] theorem raise_mem (s : State) (c : FaultCause) :
    (s.raise c).mem = Memory.ofBytes s.params.font (Config.leftByFault s).bytes := by
  simp only [State.raise, State.takeFault]

@[simp] theorem raise_params (s : State) (c : FaultCause) :
    (s.raise c).params = s.params := rfl

@[simp] theorem raise_inputs (s : State) (c : FaultCause) :
    (s.raise c).inputs = s.inputs := rfl

@[simp] theorem raise_cycle (s : State) (c : FaultCause) :
    (s.raise c).cycle = s.cycle := rfl

/-! ### drawn -/

@[simp] theorem drawn_i (s : State) (x y : Reg) (bytes : List Byte) :
    (s.drawn x y bytes).i = s.i := rfl

@[simp] theorem drawn_pc (s : State) (x y : Reg) (bytes : List Byte) :
    (s.drawn x y bytes).pc = s.pc := rfl

@[simp] theorem drawn_sp (s : State) (x y : Reg) (bytes : List Byte) :
    (s.drawn x y bytes).sp = s.sp := rfl

@[simp] theorem drawn_stack (s : State) (x y : Reg) (bytes : List Byte) :
    (s.drawn x y bytes).stack = s.stack := rfl

@[simp] theorem drawn_dt (s : State) (x y : Reg) (bytes : List Byte) :
    (s.drawn x y bytes).dt = s.dt := rfl

@[simp] theorem drawn_st (s : State) (x y : Reg) (bytes : List Byte) :
    (s.drawn x y bytes).st = s.st := rfl

@[simp] theorem drawn_grid (s : State) (x y : Reg) (bytes : List Byte) :
    (s.drawn x y bytes).grid = (s.grid.drawSprite (s.drwCoordinate x) (s.drwCoordinate y) bytes).grid := rfl

@[simp] theorem drawn_changed (s : State) (x y : Reg) (bytes : List Byte) :
    (s.drawn x y bytes).changed = true := rfl

@[simp] theorem drawn_fault (s : State) (x y : Reg) (bytes : List Byte) :
    (s.drawn x y bytes).fault = s.fault := rfl

@[simp] theorem drawn_mem (s : State) (x y : Reg) (bytes : List Byte) :
    (s.drawn x y bytes).mem = s.mem := rfl

@[simp] theorem drawn_params (s : State) (x y : Reg) (bytes : List Byte) :
    (s.drawn x y bytes).params = s.params := rfl

@[simp] theorem drawn_inputs (s : State) (x y : Reg) (bytes : List Byte) :
    (s.drawn x y bytes).inputs = s.inputs := rfl

@[simp] theorem drawn_cycle (s : State) (x y : Reg) (bytes : List Byte) :
    (s.drawn x y bytes).cycle = s.cycle := rfl

/-! ### startCycle -/

@[simp] theorem startCycle_i (s : State) :
    (s.startCycle).i = s.i := by unfold State.startCycle; split <;> rfl

@[simp] theorem startCycle_pc (s : State) :
    (s.startCycle).pc = s.pc := by unfold State.startCycle; split <;> rfl

@[simp] theorem startCycle_sp (s : State) :
    (s.startCycle).sp = s.sp := by unfold State.startCycle; split <;> rfl

@[simp] theorem startCycle_stack (s : State) :
    (s.startCycle).stack = s.stack := by unfold State.startCycle; split <;> rfl

@[simp] theorem startCycle_dt (s : State) :
    (s.startCycle).dt = s.dt := by unfold State.startCycle; split <;> rfl

@[simp] theorem startCycle_st (s : State) :
    (s.startCycle).st = s.st := by unfold State.startCycle; split <;> rfl

@[simp] theorem startCycle_grid (s : State) :
    (s.startCycle).grid = s.grid := by unfold State.startCycle; split <;> rfl

@[simp] theorem startCycle_fault (s : State) :
    (s.startCycle).fault = s.fault := by unfold State.startCycle; split <;> rfl

@[simp] theorem startCycle_mem (s : State) :
    (s.startCycle).mem = s.mem := by unfold State.startCycle; split <;> rfl

@[simp] theorem startCycle_params (s : State) :
    (s.startCycle).params = s.params := by unfold State.startCycle; split <;> rfl

@[simp] theorem startCycle_inputs (s : State) :
    (s.startCycle).inputs = s.inputs := by unfold State.startCycle; split <;> rfl

@[simp] theorem startCycle_cycle (s : State) :
    (s.startCycle).cycle = s.cycle := by unfold State.startCycle; split <;> rfl

@[simp] theorem startCycle_v (s : State) :
    (s.startCycle).v = s.v := by unfold State.startCycle; split <;> rfl

@[simp] theorem startCycle_readV (s : State) (r : Reg) :
    (s.startCycle).readV r = s.readV r := by unfold State.startCycle; split <;> rfl

/-! ### skipIf -/

@[simp] theorem skipIf_i (s : State) (c : Bool) :
    (s.skipIf c).i = s.i := by unfold State.skipIf; split <;> rfl

@[simp] theorem skipIf_pc (s : State) (c : Bool) :
    (s.skipIf c).pc = if c then s.pc + 2 else s.pc := by unfold State.skipIf; split <;> rfl

@[simp] theorem skipIf_sp (s : State) (c : Bool) :
    (s.skipIf c).sp = s.sp := by unfold State.skipIf; split <;> rfl

@[simp] theorem skipIf_stack (s : State) (c : Bool) :
    (s.skipIf c).stack = s.stack := by unfold State.skipIf; split <;> rfl

@[simp] theorem skipIf_dt (s : State) (c : Bool) :
    (s.skipIf c).dt = s.dt := by unfold State.skipIf; split <;> rfl

@[simp] theorem skipIf_st (s : State) (c : Bool) :
    (s.skipIf c).st = s.st := by unfold State.skipIf; split <;> rfl

@[simp] theorem skipIf_grid (s : State) (c : Bool) :
    (s.skipIf c).grid = s.grid := by unfold State.skipIf; split <;> rfl

@[simp] theorem skipIf_changed (s : State) (c : Bool) :
    (s.skipIf c).changed = s.changed := by unfold State.skipIf; split <;> rfl

@[simp] theorem skipIf_fault (s : State) (c : Bool) :
    (s.skipIf c).fault = s.fault := by unfold State.skipIf; split <;> rfl

@[simp] theorem skipIf_mem (s : State) (c : Bool) :
    (s.skipIf c).mem = s.mem := by unfold State.skipIf; split <;> rfl

@[simp] theorem skipIf_params (s : State) (c : Bool) :
    (s.skipIf c).params = s.params := by unfold State.skipIf; split <;> rfl

@[simp] theorem skipIf_inputs (s : State) (c : Bool) :
    (s.skipIf c).inputs = s.inputs := by unfold State.skipIf; split <;> rfl

@[simp] theorem skipIf_cycle (s : State) (c : Bool) :
    (s.skipIf c).cycle = s.cycle := by unfold State.skipIf; split <;> rfl

@[simp] theorem skipIf_v (s : State) (c : Bool) :
    (s.skipIf c).v = s.v := by unfold State.skipIf; split <;> rfl

@[simp] theorem skipIf_readV (s : State) (c : Bool) (r : Reg) :
    (s.skipIf c).readV r = s.readV r := by unfold State.skipIf; split <;> rfl

/-! ### writeResultAndFlag -/

@[simp] theorem writeResultAndFlag_i (s : State) (x : Reg) (b f : Byte) :
    (s.writeResultAndFlag x b f).i = s.i := by unfold State.writeResultAndFlag; split <;> rfl

@[simp] theorem writeResultAndFlag_pc (s : State) (x : Reg) (b f : Byte) :
    (s.writeResultAndFlag x b f).pc = s.pc := by unfold State.writeResultAndFlag; split <;> rfl

@[simp] theorem writeResultAndFlag_sp (s : State) (x : Reg) (b f : Byte) :
    (s.writeResultAndFlag x b f).sp = s.sp := by unfold State.writeResultAndFlag; split <;> rfl

@[simp] theorem writeResultAndFlag_stack (s : State) (x : Reg) (b f : Byte) :
    (s.writeResultAndFlag x b f).stack = s.stack := by unfold State.writeResultAndFlag; split <;> rfl

@[simp] theorem writeResultAndFlag_dt (s : State) (x : Reg) (b f : Byte) :
    (s.writeResultAndFlag x b f).dt = s.dt := by unfold State.writeResultAndFlag; split <;> rfl

@[simp] theorem writeResultAndFlag_st (s : State) (x : Reg) (b f : Byte) :
    (s.writeResultAndFlag x b f).st = s.st := by unfold State.writeResultAndFlag; split <;> rfl

@[simp] theorem writeResultAndFlag_grid (s : State) (x : Reg) (b f : Byte) :
    (s.writeResultAndFlag x b f).grid = s.grid := by unfold State.writeResultAndFlag; split <;> rfl

@[simp] theorem writeResultAndFlag_changed (s : State) (x : Reg) (b f : Byte) :
    (s.writeResultAndFlag x b f).changed = s.changed := by unfold State.writeResultAndFlag; split <;> rfl

@[simp] theorem writeResultAndFlag_fault (s : State) (x : Reg) (b f : Byte) :
    (s.writeResultAndFlag x b f).fault = s.fault := by unfold State.writeResultAndFlag; split <;> rfl

@[simp] theorem writeResultAndFlag_mem (s : State) (x : Reg) (b f : Byte) :
    (s.writeResultAndFlag x b f).mem = s.mem := by unfold State.writeResultAndFlag; split <;> rfl

@[simp] theorem writeResultAndFlag_params (s : State) (x : Reg) (b f : Byte) :
    (s.writeResultAndFlag x b f).params = s.params := by unfold State.writeResultAndFlag; split <;> rfl

@[simp] theorem writeResultAndFlag_inputs (s : State) (x : Reg) (b f : Byte) :
    (s.writeResultAndFlag x b f).inputs = s.inputs := by unfold State.writeResultAndFlag; split <;> rfl

@[simp] theorem writeResultAndFlag_cycle (s : State) (x : Reg) (b f : Byte) :
    (s.writeResultAndFlag x b f).cycle = s.cycle := by unfold State.writeResultAndFlag; split <;> rfl

/-! ### afterBlock -/

@[simp] theorem afterBlock_pc (s : State) (x : Reg) :
    (s.afterBlock x).pc = s.pc := by unfold State.afterBlock; split <;> rfl

@[simp] theorem afterBlock_sp (s : State) (x : Reg) :
    (s.afterBlock x).sp = s.sp := by unfold State.afterBlock; split <;> rfl

@[simp] theorem afterBlock_stack (s : State) (x : Reg) :
    (s.afterBlock x).stack = s.stack := by unfold State.afterBlock; split <;> rfl

@[simp] theorem afterBlock_dt (s : State) (x : Reg) :
    (s.afterBlock x).dt = s.dt := by unfold State.afterBlock; split <;> rfl

@[simp] theorem afterBlock_st (s : State) (x : Reg) :
    (s.afterBlock x).st = s.st := by unfold State.afterBlock; split <;> rfl

@[simp] theorem afterBlock_grid (s : State) (x : Reg) :
    (s.afterBlock x).grid = s.grid := by unfold State.afterBlock; split <;> rfl

@[simp] theorem afterBlock_changed (s : State) (x : Reg) :
    (s.afterBlock x).changed = s.changed := by unfold State.afterBlock; split <;> rfl

@[simp] theorem afterBlock_fault (s : State) (x : Reg) :
    (s.afterBlock x).fault = s.fault := by unfold State.afterBlock; split <;> rfl

@[simp] theorem afterBlock_mem (s : State) (x : Reg) :
    (s.afterBlock x).mem = s.mem := by unfold State.afterBlock; split <;> rfl

@[simp] theorem afterBlock_params (s : State) (x : Reg) :
    (s.afterBlock x).params = s.params := by unfold State.afterBlock; split <;> rfl

@[simp] theorem afterBlock_inputs (s : State) (x : Reg) :
    (s.afterBlock x).inputs = s.inputs := by unfold State.afterBlock; split <;> rfl

@[simp] theorem afterBlock_cycle (s : State) (x : Reg) :
    (s.afterBlock x).cycle = s.cycle := by unfold State.afterBlock; split <;> rfl

@[simp] theorem afterBlock_v (s : State) (x : Reg) :
    (s.afterBlock x).v = s.v := by unfold State.afterBlock; split <;> rfl

@[simp] theorem afterBlock_readV (s : State) (x : Reg) (r : Reg) :
    (s.afterBlock x).readV r = s.readV r := by unfold State.afterBlock; split <;> rfl

/-! ### pollKey -/

@[simp] theorem pollKey_i (s : State) (x : Reg) :
    (s.pollKey x).i = s.i := by unfold State.pollKey; split <;> rfl

@[simp] theorem pollKey_sp (s : State) (x : Reg) :
    (s.pollKey x).sp = s.sp := by unfold State.pollKey; split <;> rfl

@[simp] theorem pollKey_stack (s : State) (x : Reg) :
    (s.pollKey x).stack = s.stack := by unfold State.pollKey; split <;> rfl

@[simp] theorem pollKey_dt (s : State) (x : Reg) :
    (s.pollKey x).dt = s.dt := by unfold State.pollKey; split <;> rfl

@[simp] theorem pollKey_st (s : State) (x : Reg) :
    (s.pollKey x).st = s.st := by unfold State.pollKey; split <;> rfl

@[simp] theorem pollKey_grid (s : State) (x : Reg) :
    (s.pollKey x).grid = s.grid := by unfold State.pollKey; split <;> rfl

@[simp] theorem pollKey_changed (s : State) (x : Reg) :
    (s.pollKey x).changed = s.changed := by unfold State.pollKey; split <;> rfl

@[simp] theorem pollKey_fault (s : State) (x : Reg) :
    (s.pollKey x).fault = s.fault := by unfold State.pollKey; split <;> rfl

@[simp] theorem pollKey_mem (s : State) (x : Reg) :
    (s.pollKey x).mem = s.mem := by unfold State.pollKey; split <;> rfl

@[simp] theorem pollKey_params (s : State) (x : Reg) :
    (s.pollKey x).params = s.params := by unfold State.pollKey; split <;> rfl

@[simp] theorem pollKey_inputs (s : State) (x : Reg) :
    (s.pollKey x).inputs = s.inputs := by unfold State.pollKey; split <;> rfl

@[simp] theorem pollKey_cycle (s : State) (x : Reg) :
    (s.pollKey x).cycle = s.cycle := by unfold State.pollKey; split <;> rfl

/-! ### endCycle -/

@[simp] theorem endCycle_i (s : State) :
    (s.endCycle).i = s.i := by unfold State.endCycle; split <;> rfl

@[simp] theorem endCycle_pc (s : State) :
    (s.endCycle).pc = s.pc := by unfold State.endCycle; split <;> rfl

@[simp] theorem endCycle_sp (s : State) :
    (s.endCycle).sp = s.sp := by unfold State.endCycle; split <;> rfl

@[simp] theorem endCycle_stack (s : State) :
    (s.endCycle).stack = s.stack := by unfold State.endCycle; split <;> rfl

@[simp] theorem endCycle_grid (s : State) :
    (s.endCycle).grid = s.grid := by unfold State.endCycle; split <;> rfl

@[simp] theorem endCycle_changed (s : State) :
    (s.endCycle).changed = s.changed := by unfold State.endCycle; split <;> rfl

@[simp] theorem endCycle_fault (s : State) :
    (s.endCycle).fault = s.fault := by unfold State.endCycle; split <;> rfl

@[simp] theorem endCycle_mem (s : State) :
    (s.endCycle).mem = s.mem := by unfold State.endCycle; split <;> rfl

@[simp] theorem endCycle_params (s : State) :
    (s.endCycle).params = s.params := by unfold State.endCycle; split <;> rfl

@[simp] theorem endCycle_inputs (s : State) :
    (s.endCycle).inputs = s.inputs.tail := by unfold State.endCycle; split <;> rfl

@[simp] theorem endCycle_cycle (s : State) :
    (s.endCycle).cycle = s.cycle + 1 := by unfold State.endCycle; split <;> rfl

@[simp] theorem endCycle_v (s : State) :
    (s.endCycle).v = s.v := by unfold State.endCycle; split <;> rfl

@[simp] theorem endCycle_readV (s : State) (r : Reg) :
    (s.endCycle).readV r = s.readV r := by unfold State.endCycle; split <;> rfl

/-! ### writeVsFrom -/

@[simp] theorem writeVsFrom_i (s : State) (r : Nat) (bs : List Byte) : (s.writeVsFrom r bs).i = s.i := by
  induction bs generalizing s r with
  | nil => rfl
  | cons _ _ ih => unfold State.writeVsFrom; split <;> simp [ih]

@[simp] theorem writeVsFrom_pc (s : State) (r : Nat) (bs : List Byte) : (s.writeVsFrom r bs).pc = s.pc := by
  induction bs generalizing s r with
  | nil => rfl
  | cons _ _ ih => unfold State.writeVsFrom; split <;> simp [ih]

@[simp] theorem writeVsFrom_sp (s : State) (r : Nat) (bs : List Byte) : (s.writeVsFrom r bs).sp = s.sp := by
  induction bs generalizing s r with
  | nil => rfl
  | cons _ _ ih => unfold State.writeVsFrom; split <;> simp [ih]

@[simp] theorem writeVsFrom_stack (s : State) (r : Nat) (bs : List Byte) : (s.writeVsFrom r bs).stack = s.stack := by
  induction bs generalizing s r with
  | nil => rfl
  | cons _ _ ih => unfold State.writeVsFrom; split <;> simp [ih]

@[simp] theorem writeVsFrom_dt (s : State) (r : Nat) (bs : List Byte) : (s.writeVsFrom r bs).dt = s.dt := by
  induction bs generalizing s r with
  | nil => rfl
  | cons _ _ ih => unfold State.writeVsFrom; split <;> simp [ih]

@[simp] theorem writeVsFrom_st (s : State) (r : Nat) (bs : List Byte) : (s.writeVsFrom r bs).st = s.st := by
  induction bs generalizing s r with
  | nil => rfl
  | cons _ _ ih => unfold State.writeVsFrom; split <;> simp [ih]

@[simp] theorem writeVsFrom_grid (s : State) (r : Nat) (bs : List Byte) : (s.writeVsFrom r bs).grid = s.grid := by
  induction bs generalizing s r with
  | nil => rfl
  | cons _ _ ih => unfold State.writeVsFrom; split <;> simp [ih]

@[simp] theorem writeVsFrom_changed (s : State) (r : Nat) (bs : List Byte) : (s.writeVsFrom r bs).changed = s.changed := by
  induction bs generalizing s r with
  | nil => rfl
  | cons _ _ ih => unfold State.writeVsFrom; split <;> simp [ih]

@[simp] theorem writeVsFrom_fault (s : State) (r : Nat) (bs : List Byte) : (s.writeVsFrom r bs).fault = s.fault := by
  induction bs generalizing s r with
  | nil => rfl
  | cons _ _ ih => unfold State.writeVsFrom; split <;> simp [ih]

@[simp] theorem writeVsFrom_mem (s : State) (r : Nat) (bs : List Byte) : (s.writeVsFrom r bs).mem = s.mem := by
  induction bs generalizing s r with
  | nil => rfl
  | cons _ _ ih => unfold State.writeVsFrom; split <;> simp [ih]

@[simp] theorem writeVsFrom_params (s : State) (r : Nat) (bs : List Byte) : (s.writeVsFrom r bs).params = s.params := by
  induction bs generalizing s r with
  | nil => rfl
  | cons _ _ ih => unfold State.writeVsFrom; split <;> simp [ih]

@[simp] theorem writeVsFrom_inputs (s : State) (r : Nat) (bs : List Byte) : (s.writeVsFrom r bs).inputs = s.inputs := by
  induction bs generalizing s r with
  | nil => rfl
  | cons _ _ ih => unfold State.writeVsFrom; split <;> simp [ih]

@[simp] theorem writeVsFrom_cycle (s : State) (r : Nat) (bs : List Byte) : (s.writeVsFrom r bs).cycle = s.cycle := by
  induction bs generalizing s r with
  | nil => rfl
  | cons _ _ ih => unfold State.writeVsFrom; split <;> simp [ih]

/-! ### placeBytes -/

@[simp] theorem placeBytes_i (s : State) (a : Nat) (bs : List Byte) : (s.placeBytes a bs).i = s.i := by
  induction bs generalizing s a with
  | nil => rfl
  | cons _ _ ih => unfold State.placeBytes; rw [ih]; split <;> simp

@[simp] theorem placeBytes_pc (s : State) (a : Nat) (bs : List Byte) : (s.placeBytes a bs).pc = s.pc := by
  induction bs generalizing s a with
  | nil => rfl
  | cons _ _ ih => unfold State.placeBytes; rw [ih]; split <;> simp

@[simp] theorem placeBytes_sp (s : State) (a : Nat) (bs : List Byte) : (s.placeBytes a bs).sp = s.sp := by
  induction bs generalizing s a with
  | nil => rfl
  | cons _ _ ih => unfold State.placeBytes; rw [ih]; split <;> simp

@[simp] theorem placeBytes_stack (s : State) (a : Nat) (bs : List Byte) : (s.placeBytes a bs).stack = s.stack := by
  induction bs generalizing s a with
  | nil => rfl
  | cons _ _ ih => unfold State.placeBytes; rw [ih]; split <;> simp

@[simp] theorem placeBytes_dt (s : State) (a : Nat) (bs : List Byte) : (s.placeBytes a bs).dt = s.dt := by
  induction bs generalizing s a with
  | nil => rfl
  | cons _ _ ih => unfold State.placeBytes; rw [ih]; split <;> simp

@[simp] theorem placeBytes_st (s : State) (a : Nat) (bs : List Byte) : (s.placeBytes a bs).st = s.st := by
  induction bs generalizing s a with
  | nil => rfl
  | cons _ _ ih => unfold State.placeBytes; rw [ih]; split <;> simp

@[simp] theorem placeBytes_grid (s : State) (a : Nat) (bs : List Byte) : (s.placeBytes a bs).grid = s.grid := by
  induction bs generalizing s a with
  | nil => rfl
  | cons _ _ ih => unfold State.placeBytes; rw [ih]; split <;> simp

@[simp] theorem placeBytes_changed (s : State) (a : Nat) (bs : List Byte) : (s.placeBytes a bs).changed = s.changed := by
  induction bs generalizing s a with
  | nil => rfl
  | cons _ _ ih => unfold State.placeBytes; rw [ih]; split <;> simp

@[simp] theorem placeBytes_fault (s : State) (a : Nat) (bs : List Byte) : (s.placeBytes a bs).fault = s.fault := by
  induction bs generalizing s a with
  | nil => rfl
  | cons _ _ ih => unfold State.placeBytes; rw [ih]; split <;> simp

@[simp] theorem placeBytes_params (s : State) (a : Nat) (bs : List Byte) : (s.placeBytes a bs).params = s.params := by
  induction bs generalizing s a with
  | nil => rfl
  | cons _ _ ih => unfold State.placeBytes; rw [ih]; split <;> simp

@[simp] theorem placeBytes_inputs (s : State) (a : Nat) (bs : List Byte) : (s.placeBytes a bs).inputs = s.inputs := by
  induction bs generalizing s a with
  | nil => rfl
  | cons _ _ ih => unfold State.placeBytes; rw [ih]; split <;> simp

@[simp] theorem placeBytes_cycle (s : State) (a : Nat) (bs : List Byte) : (s.placeBytes a bs).cycle = s.cycle := by
  induction bs generalizing s a with
  | nil => rfl
  | cons _ _ ih => unfold State.placeBytes; rw [ih]; split <;> simp

@[simp] theorem placeBytes_v (s : State) (a : Nat) (bs : List Byte) : (s.placeBytes a bs).v = s.v := by
  induction bs generalizing s a with
  | nil => rfl
  | cons _ _ ih => unfold State.placeBytes; rw [ih]; split <;> rfl

/-! ### Values that depend on a policy -/

theorem startCycle_changed (s : State) :
    s.startCycle.changed = if s.params.changedPolicy = .perCycle then false else s.changed := by
  unfold State.startCycle; split <;> simp_all

theorem afterBlock_i (s : State) (x : Reg) :
    (s.afterBlock x).i =
      if s.params.loadStoreInc = .none then s.i else BitVec.ofNat 16 (s.i.toNat + x.val + 1) := by
  unfold State.afterBlock; split <;> simp_all

theorem endCycle_dt (s : State) :
    s.endCycle.dt = if s.fault = none then tickDown s.dt else s.dt := by
  unfold State.endCycle; split <;> rfl

theorem endCycle_st (s : State) :
    s.endCycle.st = if s.fault = none then tickDown s.st else s.st := by
  unfold State.endCycle; split <;> rfl

/-! ### Registers -/

/-- Reading a register after writing one (R20). -/
@[simp] theorem writeV_readV (s : State) (x : Reg) (b : Byte) (r : Reg) :
    (s.writeV x b).readV r = if r = x then b else s.readV r := by
  simp only [State.readV, State.writeV, Vector.get_eq_getElem, Vector.getElem_set, Fin.ext_iff,
    eq_comm (a := x.val)]

@[simp] theorem clearVF_readV (s : State) (r : Reg) :
    s.clearVF.readV r = if r = regVF then 0 else s.readV r := writeV_readV s regVF 0 r

/-- The result and the flag, in either order (R121): another register keeps its value, VF holds the
flag, except that under `result_last` it holds the result when it is the destination. -/
theorem writeResultAndFlag_readV (s : State) (x : Reg) (b f : Byte) (r : Reg) :
    (s.writeResultAndFlag x b f).readV r =
      if r = regVF then (if x = regVF ∧ s.params.vfAliasOrder = .resultLast then b else f)
      else if r = x then b else s.readV r := by
  unfold State.writeResultAndFlag
  split <;> by_cases hr : r = regVF <;> by_cases hx : x = regVF <;> simp_all
  exact fun h => absurd h.symm hx

/-- The registers after consecutive writes: register k from r on holds byte k - r (R165). -/
theorem writeVsFrom_readV (s : State) (r : Nat) (bs : List Byte) (k : Reg) :
    (s.writeVsFrom r bs).readV k =
      if h : r ≤ k.val ∧ k.val - r < bs.length then bs[k.val - r] else s.readV k := by
  induction bs generalizing s r with
  | nil => simp [State.writeVsFrom]
  | cons b rest ih =>
    unfold State.writeVsFrom
    split
    · next hr =>
      rw [ih, writeV_readV]
      by_cases hk : r = k.val
      · subst hk
        have : k = ⟨k.val, hr⟩ := rfl
        simp
      · have hne : k ≠ ⟨r, hr⟩ := fun e => hk (by rw [e])
        simp only [hne, if_false, List.length_cons]
        by_cases h1 : r + 1 ≤ k.val ∧ k.val - (r + 1) < rest.length
        · rw [dif_pos h1, dif_pos ⟨by omega, by omega⟩]
          have e : k.val - r = k.val - (r + 1) + 1 := by omega
          simp only [e, List.getElem_cons_succ]
        · rw [dif_neg h1, dif_neg (by omega)]
    · next hr =>
      rw [dif_neg]
      have := k.isLt
      omega

/-- Reading V0..Vx as a list (R164). -/
theorem regsUpTo_length (s : State) (x : Reg) : (s.regsUpTo x).length = x.val + 1 := by
  simp [State.regsUpTo]

theorem regsUpTo_getElem (s : State) (x : Reg) (k : Nat) (h : k < (s.regsUpTo x).length) :
    (s.regsUpTo x)[k] = s.readV ⟨k, by rw [regsUpTo_length] at h; omega⟩ := by
  simp [State.regsUpTo, State.readV, Vector.get_eq_getElem]

end Sys2Proof.Laws
end

