-- ==== Sys2Proof/Laws/Ops.lean ====
section
/-! SUPPORT. Laws of the shared operations: for each one lemma that says everything it can do. -/

namespace Sys2Proof.Laws

open Sys2Proof.Machine

/-! ### Ending an instruction -/

@[simp] theorem finish_ok (s t : State) : s.finish (.ok t) = .next t := rfl

@[simp] theorem finish_error (s : State) (c : FaultCause) :
    s.finish (.error c) = .next (s.raise c) := rfl

/-! ### Memory accesses (R42) -/

/-- A byte read depends on memory and the font alone. -/
theorem peek_congr {s t : State} (hm : t.mem = s.mem) (hp : t.params = s.params) (a : Nat) :
    t.peek a = s.peek a := by
  simp only [State.peek, hm, hp]

theorem readMem_congr {s t : State} (hm : t.mem = s.mem) (hp : t.params = s.params) (a : Nat) :
    t.readMem a = s.readMem a := by
  simp only [State.readMem, peek_congr hm hp]

theorem readMem_ok (s : State) {a : Nat} (h : a ≤ 0xFFF) : s.readMem a = .ok (s.peek a) :=
  if_neg (by omega)

theorem readMem_error (s : State) {a : Nat} (h : 0xFFF < a) :
    s.readMem a = .error (.memoryOutOfRange a) := if_pos h

/-! ### Updates that leave memory alone -/

@[simp] theorem writeV_readMem (s : State) (x : Reg) (b : Byte) (k : Nat) :
    (s.writeV x b).readMem k = s.readMem k := readMem_congr (by simp) (by simp) k

@[simp] theorem clearVF_readMem (s : State) (k : Nat) :
    (s.clearVF).readMem k = s.readMem k := readMem_congr (by simp) (by simp) k

@[simp] theorem jumpTo_readMem (s : State) (a : Addr) (k : Nat) :
    (s.jumpTo a).readMem k = s.readMem k := readMem_congr (by simp) (by simp) k

@[simp] theorem advancePc_readMem (s : State) (k : Nat) :
    (s.advancePc).readMem k = s.readMem k := readMem_congr (by simp) (by simp) k

@[simp] theorem tick_readMem (s : State) (k : Nat) :
    (s.tick).readMem k = s.readMem k := readMem_congr (by simp) (by simp) k

@[simp] theorem nextInput_readMem (s : State) (k : Nat) :
    (s.nextInput).readMem k = s.readMem k := readMem_congr (by simp) (by simp) k

@[simp] theorem drawn_readMem (s : State) (x y : Reg) (bytes : List Byte) (k : Nat) :
    (s.drawn x y bytes).readMem k = s.readMem k := readMem_congr (by simp) (by simp) k

@[simp] theorem startCycle_readMem (s : State) (k : Nat) :
    (s.startCycle).readMem k = s.readMem k := readMem_congr (by simp) (by simp) k

@[simp] theorem skipIf_readMem (s : State) (c : Bool) (k : Nat) :
    (s.skipIf c).readMem k = s.readMem k := readMem_congr (by simp) (by simp) k

@[simp] theorem writeResultAndFlag_readMem (s : State) (x : Reg) (b f : Byte) (k : Nat) :
    (s.writeResultAndFlag x b f).readMem k = s.readMem k := readMem_congr (by simp) (by simp) k

@[simp] theorem afterBlock_readMem (s : State) (x : Reg) (k : Nat) :
    (s.afterBlock x).readMem k = s.readMem k := readMem_congr (by simp) (by simp) k

@[simp] theorem pollKey_readMem (s : State) (x : Reg) (k : Nat) :
    (s.pollKey x).readMem k = s.readMem k := readMem_congr (by simp) (by simp) k

@[simp] theorem endCycle_readMem (s : State) (k : Nat) :
    (s.endCycle).readMem k = s.readMem k := readMem_congr (by simp) (by simp) k

@[simp] theorem writeVsFrom_readMem (s : State) (r : Nat) (bs : List Byte) (k : Nat) :
    (s.writeVsFrom r bs).readMem k = s.readMem k := readMem_congr (by simp) (by simp) k

/-- Two states that read alike below 0x1000 read alike everywhere. -/
theorem readMem_eq_iff {s t : State} {a : Nat} :
    t.readMem a = s.readMem a ↔ (a ≤ 0xFFF → t.peek a = s.peek a) := by
  by_cases h : a ≤ 0xFFF
  · simp [readMem_ok, h]
  · simp [readMem_error _ (Nat.lt_of_not_le h), h]

/-- A byte write changes that byte and no other. -/
theorem poke_peek {s : State} (hw : Memory.wf s.params.font s.mem) (a : Nat) (b : Byte) (x : Nat) :
    (s.poke a b).peek x = if x = a then b else s.peek x := memory_read_write hw a b x

theorem poke_wf {s : State} (hw : Memory.wf s.params.font s.mem) {a : Nat} (ha : a ≤ 0xFFF)
    (b : Byte) : Memory.wf (s.poke a b).params.font (s.poke a b).mem :=
  memory_write_wf (by show a < 4096; omega) hw

/-- READING n BYTES: all of them, or the fault at the first address above 0xFFF (R42, R45). -/
theorem loadBytes_eq (s : State) (a n : Nat) :
    s.loadBytes a n =
      if n = 0 ∨ a + n ≤ 0x1000 then .ok ((List.range n).map fun k => s.peek (a + k))
      else .error (.memoryOutOfRange (max a 0x1000)) := by
  induction n generalizing a with
  | zero => simp [State.loadBytes]
  | succ n ih =>
    unfold State.loadBytes
    by_cases ha : a ≤ 0xFFF
    · rw [readMem_ok s ha, ih (a + 1)]
      simp only
      by_cases h : a + (n + 1) ≤ 0x1000
      · rw [if_pos (by omega), if_pos (by omega)]
        simp only [List.range_succ_eq_map, List.map_cons, List.map_map, Nat.add_zero]
        congr 2
        refine List.map_congr_left fun k _ => ?_
        simp only [Function.comp_apply]
        congr 1
        omega
      · rw [if_neg (by omega), if_neg (by omega)]
        rw [show max (a + 1) 0x1000 = max a 0x1000 by omega]
    · rw [readMem_error s (by omega), if_neg (by omega)]
      rw [show max a 0x1000 = a by omega]

theorem loadBytes_ok (s : State) {a n : Nat} (h : n = 0 ∨ a + n ≤ 0x1000) :
    s.loadBytes a n = .ok ((List.range n).map fun k => s.peek (a + k)) := by
  rw [loadBytes_eq, if_pos h]

theorem loadBytes_error (s : State) {a n : Nat} (h : 0 < n) (h' : 0x1000 < a + n) :
    s.loadBytes a n = .error (.memoryOutOfRange (max a 0x1000)) := by
  rw [loadBytes_eq, if_neg (by omega)]

/-- WRITING BYTES: all of them, or the fault at the first address above 0xFFF (R42, R45). -/
theorem storeBytes_eq (s : State) (a : Nat) (bs : List Byte) :
    s.storeBytes a bs =
      if bs = [] ∨ a + bs.length ≤ 0x1000 then .ok (s.placeBytes a bs)
      else .error (.memoryOutOfRange (max a 0x1000)) := by
  induction bs generalizing s a with
  | nil => simp [State.storeBytes, State.placeBytes]
  | cons b rest ih =>
    unfold State.storeBytes State.writeMem State.placeBytes
    by_cases ha : a ≤ 0xFFF
    · have e : (rest = [] ∨ a + 1 + rest.length ≤ 0x1000) ↔
          (b :: rest = [] ∨ a + (b :: rest).length ≤ 0x1000) := by
        cases rest <;> simp <;> omega
      have hna : ¬ a > 0xFFF := by omega
      simp only [hna, if_false, ih, e]
      rw [show max (a + 1) 0x1000 = max a 0x1000 by omega]
    · rw [if_pos (by omega), if_neg (by simp; omega)]
      rw [show max a 0x1000 = a by omega]

theorem storeBytes_ok (s : State) {a : Nat} {bs : List Byte} (h : a + bs.length ≤ 0x1000) :
    s.storeBytes a bs = .ok (s.placeBytes a bs) := by
  rw [storeBytes_eq, if_pos (.inr h)]

theorem storeBytes_error (s : State) {a : Nat} {bs : List Byte} (h : bs ≠ [])
    (h' : 0x1000 < a + bs.length) :
    s.storeBytes a bs = .error (.memoryOutOfRange (max a 0x1000)) := by
  rw [storeBytes_eq, if_neg (by simp [h]; omega)]

/-- Placing bytes keeps the canonical form. -/
theorem placeBytes_wf {s : State} (hw : Memory.wf s.params.font s.mem) (a : Nat)
    (bs : List Byte) : Memory.wf (s.placeBytes a bs).params.font (s.placeBytes a bs).mem := by
  induction bs generalizing s a with
  | nil => exact hw
  | cons b rest ih =>
    unfold State.placeBytes
    apply ih
    split
    · exact hw
    · exact poke_wf hw (by omega) b

/-- PLACING BYTES: address x holds byte x - a of the list when that is inside memory, and every other
address is left alone (R242). -/
theorem placeBytes_peek {s : State} (hw : Memory.wf s.params.font s.mem) (a : Nat)
    (bs : List Byte) (x : Nat) :
    (s.placeBytes a bs).peek x =
      if h : a ≤ x ∧ x - a < bs.length ∧ x ≤ 0xFFF then bs[x - a]'h.2.1 else s.peek x := by
  induction bs generalizing s a with
  | nil => simp [State.placeBytes]
  | cons b rest ih =>
    unfold State.placeBytes
    by_cases ha : a > 0xFFF
    · rw [if_pos ha, ih hw, dif_neg (by omega), dif_neg (by omega)]
    · rw [if_neg ha, ih (poke_wf hw (by omega) b), poke_peek hw]
      by_cases hx : x = a
      · subst hx
        rw [dif_neg (by omega), if_pos rfl, dif_pos (by simp; omega)]
        simp
      · rw [if_neg hx]
        by_cases h : a + 1 ≤ x ∧ x - (a + 1) < rest.length ∧ x ≤ 0xFFF
        · rw [dif_pos h, dif_pos (by simp; omega)]
          have e : x - a = x - (a + 1) + 1 := by omega
          simp only [e, List.getElem_cons_succ]
        · rw [dif_neg h, dif_neg (by simp; omega)]

/-! ### The call stack (R24) -/

theorem push_ok (s : State) (a : Addr) (h : s.sp.val < 16) :
    s.push a = .ok { s with stack := s.stack.set s.sp.val a h, sp := ⟨s.sp.val + 1, by omega⟩ } :=
  dif_pos h

theorem push_error (s : State) (a : Addr) (h : s.sp.val = 16) :
    s.push a = .error .stackOverflow := dif_neg (by omega)

theorem popPc_error (s : State) (h : s.sp.val = 0) : s.popPc = .error .stackUnderflow := if_pos h

theorem popPc_ok (s : State) (h : s.sp.val ≠ 0) :
    s.popPc = .ok { s with
      sp := ⟨s.sp.val - 1, by omega⟩
      pc := s.stack[s.sp.val - 1]'(by omega) } := if_neg h

/-! ### The arguments of the cycle (R28, R71, R182) -/

theorem lowestKey_none (s : State) : s.lowestKey = none ↔ ∀ k, s.key k = false := by
  simp [State.lowestKey]

/-- The lowest pressed key is pressed, and no lower one is. -/
theorem lowestKey_some (s : State) (k : Fin 16) :
    s.lowestKey = some k ↔ s.key k = true ∧ ∀ j < k, s.key j = false := by
  constructor
  · intro h
    refine ⟨List.find?_some h, fun j hj => ?_⟩
    have h2 := (List.find?_eq_some_iff_getElem.1 h).2
    obtain ⟨n, hn, he, hlt⟩ := h2
    have hjk : j.val < n := by
      have : (List.finRange 16)[n] = k := he
      rw [List.getElem_finRange] at this
      have hv := congrArg Fin.val this
      simp at hv
      omega
    have := hlt j.val hjk
    simpa using this
  · rintro ⟨hk, hlow⟩
    refine List.find?_eq_some_iff_getElem.2 ⟨hk, k.val, by simp, by simp, fun j hj => ?_⟩
    have := hlow ⟨j, by omega⟩ hj
    simpa using this

theorem keyOf_ok (s : State) (x : Reg) (h : (s.readV x).toNat < 16) :
    s.keyOf x = .ok (s.key ⟨(s.readV x).toNat, h⟩) := dif_pos h

theorem keyOf_error (s : State) (x : Reg) (h : 16 ≤ (s.readV x).toNat) :
    s.keyOf x = .error (.keyIndexOutOfRange (s.readV x)) := dif_neg (by omega)

/-! ### The fetch (R43, R69) -/

/-- THE FETCH: the big-endian word at pc, or the fault at the first address above 0xFFF. -/
theorem fetch_eq (s : State) :
    s.fetch =
      if s.pc.toNat ≤ 0xFFE then .ok (s.peek s.pc.toNat ++ s.peek (s.pc.toNat + 1))
      else .error (.memoryOutOfRange (max s.pc.toNat 0x1000)) := by
  unfold State.fetch
  by_cases h : s.pc.toNat ≤ 0xFFE
  · rw [loadBytes_ok s (.inr (by omega)), if_pos h]
    rfl
  · rw [loadBytes_error s (by omega) (by omega), if_neg h]

theorem fetch_ok (s : State) (h : s.pc.toNat ≤ 0xFFE) :
    s.fetch = .ok (s.peek s.pc.toNat ++ s.peek (s.pc.toNat + 1)) := by
  rw [fetch_eq, if_pos h]

theorem fetch_error (s : State) (h : 0xFFE < s.pc.toNat) :
    s.fetch = .error (.memoryOutOfRange (max s.pc.toNat 0x1000)) := by
  rw [fetch_eq, if_neg (by omega)]

/-! ### Flags -/

theorem flagByte_eq_one (c : Bool) : flagByte c = 1 ↔ c = true := by cases c <;> decide

theorem flagByte_eq_zero (c : Bool) : flagByte c = 0 ↔ c = false := by cases c <;> decide

theorem tickDown_toNat (t : Byte) : (tickDown t).toNat = t.toNat - 1 := by
  unfold tickDown
  split
  · next h => subst h; rfl
  · next h =>
    have : t.toNat ≠ 0 := fun e => h (BitVec.eq_of_toNat_eq e)
    rw [BitVec.toNat_sub_of_le]
    · rfl
    · rw [BitVec.le_def]
      show 1 ≤ t.toNat
      omega

end Sys2Proof.Laws
end

