-- ==== Sys2Proof/Laws/PerInstr.lean ====
section
/-! SUPPORT. Statements made per instruction. Family `RowBuilds`: the word of an instruction is accepted
by a row of the opcode map (spec/30_encoding.md R65), and that row builds the instruction back from it,
whatever `STRICT_SKIP_LOW_NIBBLE` is. -/

namespace Sys2Proof.Laws.RowBuilds

/-- Some row of the opcode map accepts the word of the instruction and reads every operand back. -/
def Statement (i : Instr) : Prop :=
  ∀ strict : Bool, ∃ r ∈ opcodeRows strict, r.accepts (encode i) = true ∧ r.build (encode i) = i

/-- How a row is shown to accept a word: its masked bits are the row's value. -/
theorem of_row {i : Instr} (r : Bool → OpRow) (hr : ∀ strict, r strict ∈ opcodeRows strict)
    (ha : ∀ strict, encode i &&& (r strict).mask = (r strict).value)
    (hb : ∀ strict, (r strict).build (encode i) = i) : Statement i :=
  fun strict => ⟨r strict, hr strict, by simp [OpRow.accepts, ha], hb strict⟩

theorem rowA {r : OpRow} {strict : Bool} (n : Nat) (h : (opcodeRowsA strict)[n]? = some r) :
    r ∈ opcodeRows strict :=
  List.mem_append_left _ (List.mem_append_left _ (List.mem_of_getElem? h))

theorem rowB {r : OpRow} {strict : Bool} (n : Nat) (h : (opcodeRowsB strict)[n]? = some r) :
    r ∈ opcodeRows strict :=
  List.mem_append_left _ (List.mem_append_right _ (List.mem_of_getElem? h))

theorem rowC {r : OpRow} {strict : Bool} (n : Nat) (h : opcodeRowsC[n]? = some r) :
    r ∈ opcodeRows strict :=
  List.mem_append_right _ (List.mem_of_getElem? h)

theorem cls : Statement .cls :=
  of_row (fun strict => (opcodeRowsA strict)[0]'(by simp [opcodeRowsA])) (fun _ => rowA 0 rfl)
    (fun strict => by cases strict <;> decide)
    (fun _ => rfl)

theorem ret : Statement .ret :=
  of_row (fun strict => (opcodeRowsA strict)[1]'(by simp [opcodeRowsA])) (fun _ => rowA 1 rfl)
    (fun strict => by cases strict <;> decide)
    (fun _ => rfl)

theorem sys (nnn : BitVec 12) : Statement (.sys nnn) :=
  of_row (fun strict => (opcodeRowsA strict)[2]'(by simp [opcodeRowsA])) (fun _ => rowA 2 rfl)
    (fun _ => mask_wordNNN _ nnn)
    (fun _ => by
      simp only [opcodeRowsA, List.getElem_cons_succ, List.getElem_cons_zero, encode, fieldNNN_wordNNN])

theorem jp (nnn : BitVec 12) : Statement (.jp nnn) :=
  of_row (fun strict => (opcodeRowsA strict)[3]'(by simp [opcodeRowsA])) (fun _ => rowA 3 rfl)
    (fun _ => mask_wordNNN _ nnn)
    (fun _ => by
      simp only [opcodeRowsA, List.getElem_cons_succ, List.getElem_cons_zero, encode, fieldNNN_wordNNN])

theorem call (nnn : BitVec 12) : Statement (.call nnn) :=
  of_row (fun strict => (opcodeRowsA strict)[4]'(by simp [opcodeRowsA])) (fun _ => rowA 4 rfl)
    (fun _ => mask_wordNNN _ nnn)
    (fun _ => by
      simp only [opcodeRowsA, List.getElem_cons_succ, List.getElem_cons_zero, encode, fieldNNN_wordNNN])

theorem seImm (x : Reg) (kk : Byte) : Statement (.seImm x kk) :=
  of_row (fun strict => (opcodeRowsA strict)[5]'(by simp [opcodeRowsA])) (fun _ => rowA 5 rfl)
    (fun _ => mask_wordNNN _ (regBits x ++ kk))
    (fun _ => by
      simp only [opcodeRowsA, List.getElem_cons_succ, List.getElem_cons_zero, encode, fieldX_wordXKK, fieldKK_wordXKK])

theorem sneImm (x : Reg) (kk : Byte) : Statement (.sneImm x kk) :=
  of_row (fun strict => (opcodeRowsA strict)[6]'(by simp [opcodeRowsA])) (fun _ => rowA 6 rfl)
    (fun _ => mask_wordNNN _ (regBits x ++ kk))
    (fun _ => by
      simp only [opcodeRowsA, List.getElem_cons_succ, List.getElem_cons_zero, encode, fieldX_wordXKK, fieldKK_wordXKK])

theorem seReg (x y : Reg) : Statement (.seReg x y) :=
  of_row (fun strict => (opcodeRowsA strict)[7]'(by simp [opcodeRowsA])) (fun _ => rowA 7 rfl)
    (fun strict => by
      cases strict
      · exact mask_wordNNN _ (regBits x ++ (regBits y ++ 0#4))
      · exact mask_wordXYN _ x y _)
    (fun _ => by
      simp only [opcodeRowsA, List.getElem_cons_succ, List.getElem_cons_zero, encode, fieldX_wordXYN, fieldY_wordXYN])

theorem ldImm (x : Reg) (kk : Byte) : Statement (.ldImm x kk) :=
  of_row (fun strict => (opcodeRowsA strict)[8]'(by simp [opcodeRowsA])) (fun _ => rowA 8 rfl)
    (fun _ => mask_wordNNN _ (regBits x ++ kk))
    (fun _ => by
      simp only [opcodeRowsA, List.getElem_cons_succ, List.getElem_cons_zero, encode, fieldX_wordXKK, fieldKK_wordXKK])

theorem addImm (x : Reg) (kk : Byte) : Statement (.addImm x kk) :=
  of_row (fun strict => (opcodeRowsA strict)[9]'(by simp [opcodeRowsA])) (fun _ => rowA 9 rfl)
    (fun _ => mask_wordNNN _ (regBits x ++ kk))
    (fun _ => by
      simp only [opcodeRowsA, List.getElem_cons_succ, List.getElem_cons_zero, encode, fieldX_wordXKK, fieldKK_wordXKK])

theorem ldReg (x y : Reg) : Statement (.ldReg x y) :=
  of_row (fun strict => (opcodeRowsB strict)[0]'(by simp [opcodeRowsB])) (fun _ => rowB 0 rfl)
    (fun _ => mask_wordXYN _ x y _)
    (fun _ => by
      simp only [opcodeRowsB, List.getElem_cons_zero, encode, fieldX_wordXYN, fieldY_wordXYN])

theorem orReg (x y : Reg) : Statement (.orReg x y) :=
  of_row (fun strict => (opcodeRowsB strict)[1]'(by simp [opcodeRowsB])) (fun _ => rowB 1 rfl)
    (fun _ => mask_wordXYN _ x y _)
    (fun _ => by
      simp only [opcodeRowsB, List.getElem_cons_succ, List.getElem_cons_zero, encode, fieldX_wordXYN, fieldY_wordXYN])

theorem andReg (x y : Reg) : Statement (.andReg x y) :=
  of_row (fun strict => (opcodeRowsB strict)[2]'(by simp [opcodeRowsB])) (fun _ => rowB 2 rfl)
    (fun _ => mask_wordXYN _ x y _)
    (fun _ => by
      simp only [opcodeRowsB, List.getElem_cons_succ, List.getElem_cons_zero, encode, fieldX_wordXYN, fieldY_wordXYN])

theorem xorReg (x y : Reg) : Statement (.xorReg x y) :=
  of_row (fun strict => (opcodeRowsB strict)[3]'(by simp [opcodeRowsB])) (fun _ => rowB 3 rfl)
    (fun _ => mask_wordXYN _ x y _)
    (fun _ => by
      simp only [opcodeRowsB, List.getElem_cons_succ, List.getElem_cons_zero, encode, fieldX_wordXYN, fieldY_wordXYN])

theorem addReg (x y : Reg) : Statement (.addReg x y) :=
  of_row (fun strict => (opcodeRowsB strict)[4]'(by simp [opcodeRowsB])) (fun _ => rowB 4 rfl)
    (fun _ => mask_wordXYN _ x y _)
    (fun _ => by
      simp only [opcodeRowsB, List.getElem_cons_succ, List.getElem_cons_zero, encode, fieldX_wordXYN, fieldY_wordXYN])

theorem sub (x y : Reg) : Statement (.sub x y) :=
  of_row (fun strict => (opcodeRowsB strict)[5]'(by simp [opcodeRowsB])) (fun _ => rowB 5 rfl)
    (fun _ => mask_wordXYN _ x y _)
    (fun _ => by
      simp only [opcodeRowsB, List.getElem_cons_succ, List.getElem_cons_zero, encode, fieldX_wordXYN, fieldY_wordXYN])

theorem shr (x y : Reg) : Statement (.shr x y) :=
  of_row (fun strict => (opcodeRowsB strict)[6]'(by simp [opcodeRowsB])) (fun _ => rowB 6 rfl)
    (fun _ => mask_wordXYN _ x y _)
    (fun _ => by
      simp only [opcodeRowsB, List.getElem_cons_succ, List.getElem_cons_zero, encode, fieldX_wordXYN, fieldY_wordXYN])

theorem subn (x y : Reg) : Statement (.subn x y) :=
  of_row (fun strict => (opcodeRowsB strict)[7]'(by simp [opcodeRowsB])) (fun _ => rowB 7 rfl)
    (fun _ => mask_wordXYN _ x y _)
    (fun _ => by
      simp only [opcodeRowsB, List.getElem_cons_succ, List.getElem_cons_zero, encode, fieldX_wordXYN, fieldY_wordXYN])

theorem shl (x y : Reg) : Statement (.shl x y) :=
  of_row (fun strict => (opcodeRowsB strict)[8]'(by simp [opcodeRowsB])) (fun _ => rowB 8 rfl)
    (fun _ => mask_wordXYN _ x y _)
    (fun _ => by
      simp only [opcodeRowsB, List.getElem_cons_succ, List.getElem_cons_zero, encode, fieldX_wordXYN, fieldY_wordXYN])

theorem sneReg (x y : Reg) : Statement (.sneReg x y) :=
  of_row (fun strict => (opcodeRowsB strict)[9]'(by simp [opcodeRowsB])) (fun _ => rowB 9 rfl)
    (fun strict => by
      cases strict
      · exact mask_wordNNN _ (regBits x ++ (regBits y ++ 0#4))
      · exact mask_wordXYN _ x y _)
    (fun _ => by
      simp only [opcodeRowsB, List.getElem_cons_succ, List.getElem_cons_zero, encode, fieldX_wordXYN, fieldY_wordXYN])

theorem ldI (nnn : BitVec 12) : Statement (.ldI nnn) :=
  of_row (fun strict => (opcodeRowsB strict)[10]'(by simp [opcodeRowsB])) (fun _ => rowB 10 rfl)
    (fun _ => mask_wordNNN _ nnn)
    (fun _ => by
      simp only [opcodeRowsB, List.getElem_cons_succ, List.getElem_cons_zero, encode, fieldNNN_wordNNN])

theorem jpV0 (nnn : BitVec 12) : Statement (.jpV0 nnn) :=
  of_row (fun strict => (opcodeRowsB strict)[11]'(by simp [opcodeRowsB])) (fun _ => rowB 11 rfl)
    (fun _ => mask_wordNNN _ nnn)
    (fun _ => by
      simp only [opcodeRowsB, List.getElem_cons_succ, List.getElem_cons_zero, encode, fieldNNN_wordNNN])

theorem rnd (x : Reg) (kk : Byte) : Statement (.rnd x kk) :=
  of_row (fun strict => (opcodeRowsB strict)[12]'(by simp [opcodeRowsB])) (fun _ => rowB 12 rfl)
    (fun _ => mask_wordNNN _ (regBits x ++ kk))
    (fun _ => by
      simp only [opcodeRowsB, List.getElem_cons_succ, List.getElem_cons_zero, encode, fieldX_wordXKK, fieldKK_wordXKK])

theorem drw (x y : Reg) (n : BitVec 4) : Statement (.drw x y n) :=
  of_row (fun strict => (opcodeRowsB strict)[13]'(by simp [opcodeRowsB])) (fun _ => rowB 13 rfl)
    (fun _ => mask_wordNNN _ (regBits x ++ (regBits y ++ n)))
    (fun _ => by
      simp only [opcodeRowsB, List.getElem_cons_succ, List.getElem_cons_zero, encode, fieldX_wordXYN, fieldY_wordXYN, fieldN_wordXYN])

theorem skp (x : Reg) : Statement (.skp x) :=
  of_row (fun _ => opcodeRowsC[0]'(by simp [opcodeRowsC])) (fun _ => rowC 0 rfl)
    (fun _ => mask_wordXKK _ x _)
    (fun _ => by
      simp only [opcodeRowsC, List.getElem_cons_zero, encode, fieldX_wordXKK])

theorem sknp (x : Reg) : Statement (.sknp x) :=
  of_row (fun _ => opcodeRowsC[1]'(by simp [opcodeRowsC])) (fun _ => rowC 1 rfl)
    (fun _ => mask_wordXKK _ x _)
    (fun _ => by
      simp only [opcodeRowsC, List.getElem_cons_succ, List.getElem_cons_zero, encode, fieldX_wordXKK])

theorem ldVxDt (x : Reg) : Statement (.ldVxDt x) :=
  of_row (fun _ => opcodeRowsC[2]'(by simp [opcodeRowsC])) (fun _ => rowC 2 rfl)
    (fun _ => mask_wordXKK _ x _)
    (fun _ => by
      simp only [opcodeRowsC, List.getElem_cons_succ, List.getElem_cons_zero, encode, fieldX_wordXKK])

theorem ldVxK (x : Reg) : Statement (.ldVxK x) :=
  of_row (fun _ => opcodeRowsC[3]'(by simp [opcodeRowsC])) (fun _ => rowC 3 rfl)
    (fun _ => mask_wordXKK _ x _)
    (fun _ => by
      simp only [opcodeRowsC, List.getElem_cons_succ, List.getElem_cons_zero, encode, fieldX_wordXKK])

theorem ldDtVx (x : Reg) : Statement (.ldDtVx x) :=
  of_row (fun _ => opcodeRowsC[4]'(by simp [opcodeRowsC])) (fun _ => rowC 4 rfl)
    (fun _ => mask_wordXKK _ x _)
    (fun _ => by
      simp only [opcodeRowsC, List.getElem_cons_succ, List.getElem_cons_zero, encode, fieldX_wordXKK])

theorem ldStVx (x : Reg) : Statement (.ldStVx x) :=
  of_row (fun _ => opcodeRowsC[5]'(by simp [opcodeRowsC])) (fun _ => rowC 5 rfl)
    (fun _ => mask_wordXKK _ x _)
    (fun _ => by
      simp only [opcodeRowsC, List.getElem_cons_succ, List.getElem_cons_zero, encode, fieldX_wordXKK])

theorem addI (x : Reg) : Statement (.addI x) :=
  of_row (fun _ => opcodeRowsC[6]'(by simp [opcodeRowsC])) (fun _ => rowC 6 rfl)
    (fun _ => mask_wordXKK _ x _)
    (fun _ => by
      simp only [opcodeRowsC, List.getElem_cons_succ, List.getElem_cons_zero, encode, fieldX_wordXKK])

theorem ldF (x : Reg) : Statement (.ldF x) :=
  of_row (fun _ => opcodeRowsC[7]'(by simp [opcodeRowsC])) (fun _ => rowC 7 rfl)
    (fun _ => mask_wordXKK _ x _)
    (fun _ => by
      simp only [opcodeRowsC, List.getElem_cons_succ, List.getElem_cons_zero, encode, fieldX_wordXKK])

theorem ldB (x : Reg) : Statement (.ldB x) :=
  of_row (fun _ => opcodeRowsC[8]'(by simp [opcodeRowsC])) (fun _ => rowC 8 rfl)
    (fun _ => mask_wordXKK _ x _)
    (fun _ => by
      simp only [opcodeRowsC, List.getElem_cons_succ, List.getElem_cons_zero, encode, fieldX_wordXKK])

theorem storeRegs (x : Reg) : Statement (.storeRegs x) :=
  of_row (fun _ => opcodeRowsC[9]'(by simp [opcodeRowsC])) (fun _ => rowC 9 rfl)
    (fun _ => mask_wordXKK _ x _)
    (fun _ => by
      simp only [opcodeRowsC, List.getElem_cons_succ, List.getElem_cons_zero, encode, fieldX_wordXKK])

theorem loadRegs (x : Reg) : Statement (.loadRegs x) :=
  of_row (fun _ => opcodeRowsC[10]'(by simp [opcodeRowsC])) (fun _ => rowC 10 rfl)
    (fun _ => mask_wordXKK _ x _)
    (fun _ => by
      simp only [opcodeRowsC, List.getElem_cons_succ, List.getElem_cons_zero, encode, fieldX_wordXKK])

end Sys2Proof.Laws.RowBuilds
end

