-- ==== Sys2Proof/Laws/Run.lean ====
section
/-! SUPPORT. Laws of the end of a run (spec/70_reset_and_hazards.md R248): what `State.finishedAfter` can
answer, and that a run is finished at one boundary alone. -/

namespace Sys2Proof.Laws

open Sys2Proof.Machine

/-- A run that starts at END_PC is finished there, before any cycle. -/
theorem finishedAfter_atEnd {e : EndPc} {s t : State} {n : Nat} (h : s.atEnd e) :
    s.finishedAfter e n = some t ↔ n = 0 ∧ t = s := by
  cases n with
  | zero => rw [State.finishedAfter, if_pos h]; simp [eq_comm]
  | succ k => rw [State.finishedAfter, if_pos h]; simp

/-- Any other run needs a cycle, and is finished where the rest of it is. -/
theorem finishedAfter_cycle {e : EndPc} {s t : State} {n : Nat} (h : ¬ s.atEnd e) :
    s.finishedAfter e n = some t ↔
      ∃ k u, n = k + 1 ∧ step s = .next u ∧ u.finishedAfter e k = some t := by
  cases n with
  | zero => simp [State.finishedAfter, h]
  | succ k =>
    rw [State.finishedAfter, if_neg h]
    cases step s <;> simp

/-- A finished run stands at END_PC without a fault. -/
theorem finishedAfter_final {e : EndPc} {n : Nat} {s t : State}
    (h : s.finishedAfter e n = some t) : t.atEnd e := by
  induction n generalizing s with
  | zero =>
    by_cases hs : s.atEnd e
    · rw [((finishedAfter_atEnd hs).1 h).2]; exact hs
    · obtain ⟨k, u, hk, -⟩ := (finishedAfter_cycle hs).1 h
      cases hk
  | succ n ih =>
    by_cases hs : s.atEnd e
    · cases ((finishedAfter_atEnd hs).1 h).1
    · obtain ⟨k, u, hk, -, hu⟩ := (finishedAfter_cycle hs).1 h
      cases hk
      exact ih hu

/-- "The first cycle boundary": a run is finished after one number of cycles only, in one state. -/
theorem finishedAfter_unique {e : EndPc} {n m : Nat} {s t u : State}
    (ht : s.finishedAfter e n = some t) (hu : s.finishedAfter e m = some u) : n = m ∧ t = u := by
  induction n generalizing s m with
  | zero =>
    by_cases hs : s.atEnd e
    · obtain ⟨rfl, rfl⟩ := (finishedAfter_atEnd hs).1 hu
      exact ⟨rfl, ((finishedAfter_atEnd hs).1 ht).2⟩
    · obtain ⟨k, x, hk, -⟩ := (finishedAfter_cycle hs).1 ht
      cases hk
  | succ n ih =>
    by_cases hs : s.atEnd e
    · cases ((finishedAfter_atEnd hs).1 ht).1
    · obtain ⟨k, x, hk, hx, hxt⟩ := (finishedAfter_cycle hs).1 ht
      obtain ⟨j, y, rfl, hy, hyu⟩ := (finishedAfter_cycle hs).1 hu
      cases hk
      rw [hx] at hy
      cases hy
      obtain ⟨rfl, h⟩ := ih hxt hyu
      exact ⟨rfl, h⟩

end Sys2Proof.Laws
end

