-- ==== Sys2Proof/Laws/Step.lean ====
section
/-! SUPPORT. Laws of the cycle: everything `step` can do, said once; the canonical form of memory under
every operation that touches it; and the placing of a word where the next cycle fetches. -/

namespace Sys2Proof.Laws

open Sys2Proof.Machine

/-! ### What a step can do -/

/-- The three ways a step answers a next state (R69): the fetch faulted, the word was unrecognized, or
the instruction ran. -/
inductive StepCase (s t : State) : Prop where
  | fetchFault (c : FaultCause) (hf : s.startCycle.fetch = .error c)
      (ht : t = (s.startCycle.takeFault s.pc c).endCycle)
  | unrecognized (w : Opcode) (e : DecodeError) (hf : s.startCycle.fetch = .ok w)
      (hd : decodeWord s.params.strictSkip w = .error e)
      (ht : t = (s.startCycle.advancePc.raise (.unrecognizedInstruction w)).endCycle)
  | ran (w : Opcode) (i : Instr) (u : State) (hf : s.startCycle.fetch = .ok w)
      (hd : decodeWord s.params.strictSkip w = .ok i)
      (hx : exec i s.startCycle.advancePc = .next u) (ht : t = u.endCycle)

theorem step_halted {s : State} {r : FaultRecord} (h : s.fault = some r) :
    step s = .fault (.halted r) := by
  unfold step; rw [h]

/-- A step that answers a next state began in a running core and is one of the three cases. -/
theorem step_next {s t : State} (h : step s = .next t) : s.fault = none ∧ StepCase s t := by
  unfold step at h
  split at h
  · cases h
  · next hs =>
    refine ⟨hs, ?_⟩
    simp only at h
    split at h
    · next c hf =>
      rw [startCycle_pc] at h
      exact .fetchFault c hf (Host.Outcome.next.inj h).symm
    · next w hf =>
      rw [advancePc_params, startCycle_params] at h
      split at h
      · next e hd => exact .unrecognized w e hf hd (Host.Outcome.next.inj h).symm
      · next i hd =>
        split at h
        · next u hx => exact .ran w i u hf hd hx (Host.Outcome.next.inj h).symm
        · cases h
        · cases h

/-- How a running core runs the instruction it fetched (R69). -/
theorem step_ran {s u : State} {w : Opcode} {i : Instr} (hs : s.fault = none)
    (hf : s.startCycle.fetch = .ok w) (hd : decodeWord s.params.strictSkip w = .ok i)
    (hx : exec i s.startCycle.advancePc = .next u) : step s = .next u.endCycle := by
  unfold step
  rw [hs]
  simp only [hf, advancePc_params, startCycle_params, hd, hx]

theorem step_fetchFault {s : State} {c : FaultCause} (hs : s.fault = none)
    (hf : s.startCycle.fetch = .error c) :
    step s = .next (s.startCycle.takeFault s.pc c).endCycle := by
  unfold step
  rw [hs]
  simp only [hf, startCycle_pc]

theorem step_unrecognized {s : State} {w : Opcode} {e : DecodeError} (hs : s.fault = none)
    (hf : s.startCycle.fetch = .ok w) (hd : decodeWord s.params.strictSkip w = .error e) :
    step s = .next (s.startCycle.advancePc.raise (.unrecognizedInstruction w)).endCycle := by
  unfold step
  rw [hs]
  simp only [hf, advancePc_params, startCycle_params, hd]

/-- The fetch of a cycle sees the memory and the pc the cycle began with (R51). -/
theorem startCycle_fetch (s : State) : s.startCycle.fetch = s.fetch := by
  simp only [fetch_eq, startCycle_pc, peek_congr (startCycle_mem s) (startCycle_params s)]

/-! ### The canonical form -/

theorem takeFault_wf (s : State) (a : Addr) (c : FaultCause) :
    Memory.wf (s.takeFault a c).params.font (s.takeFault a c).mem := by
  rw [takeFault_params, takeFault_mem]
  exact memory_ofBytes_wf _ _

theorem initialize_wf (p : Params) :
    Memory.wf (State.initialize p).params.font (State.initialize p).mem := memory_wf_nil _

/-- The load keeps the canonical form (R242). -/
theorem loadProgram_wf {s t : State} {source : Option (List Byte)}
    (hw : Memory.wf s.params.font s.mem) (h : s.loadProgram source = some t) :
    Memory.wf t.params.font t.mem := by
  unfold State.loadProgram at h
  split at h
  · cases h
  · cases h; exact placeBytes_wf hw _ _

/-! ### Placing a word where the next cycle fetches -/

/-- After `withFetchWord` the fetch gives that word. -/
theorem withFetchWord_fetch {s : State} (hw : Memory.wf s.params.font s.mem)
    (hpc : s.pc.toNat ≤ 0xFFE) (w : Nat) :
    (s.withFetchWord 16 w).fetch = .ok (BitVec.ofNat 16 w) := by
  have e : BitVec.ofNat 16 (w % 2 ^ 16) = BitVec.ofNat 16 w := by
    apply BitVec.eq_of_toNat_eq; simp
  unfold State.withFetchWord
  rw [fetch_ok _ (by simpa using hpc)]
  simp only [placeBytes_pc, placeBytes_peek hw, e]
  rw [dif_pos (by simp; omega), dif_pos (by simp; omega)]
  simp only [Nat.sub_self, Nat.add_sub_cancel_left, List.getElem_cons_zero,
    List.getElem_cons_succ]
  exact congrArg _ (wordOfBytes_split _)

end Sys2Proof.Laws
end

