-- ==== Sys2Proof/Tests/Slice0.lean ====
section
/-! SUPPORT. Tests of the model, expected results from spec/95_test_vectors.md (the vector is named in
each docstring) or written out from the encodings of spec/30_encoding.md; and for every statement with
hypotheses a witness that meets them. -/

namespace Sys2Proof.Tests

open Sys2Proof.Machine

/-! ### Well-formedness: the one check, an ill-formed term for each of its two values -/

/-- R65 row 3: SYS does not name the word of CLS. -/
theorem test_wf_sys_refuses_cls : (Instr.sys 0x0E0).wellFormed = false := by decide

/-- R65 row 3: SYS does not name the word of RET. -/
theorem test_wf_sys_refuses_ret : (Instr.sys 0x0EE).wellFormed = false := by decide

theorem test_wf_accepts : (Instr.sys 0x0E1).wellFormed = true ∧ Instr.cls.wellFormed = true ∧
    (Instr.drw 15 15 15).wellFormed = true := by decide

/-! ### Decoding: words written out bit by bit from R61 and R65, every constructor -/

/-- Family 0: CLS, RET, SYS (the last is DC6). -/
theorem test_decode_0 :
    decodeWord true (0b0000000011100000 : Opcode) = .ok .cls ∧
    decodeWord true (0b0000000011101110 : Opcode) = .ok .ret ∧
    decodeWord true (0b0000000011100001 : Opcode) = .ok (.sys 0x0E1) ∧
    decodeWord true (0b0000100000000000 : Opcode) = .ok (.sys 0x800) :=
  ⟨rfl, rfl, rfl, rfl⟩

/-- Families 1, 2, A and B: NNN in bits 11..0. -/
theorem test_decode_nnn :
    decodeWord true (0b0001001000110100 : Opcode) = .ok (.jp 0x234) ∧
    decodeWord true (0b0010001100000000 : Opcode) = .ok (.call 0x300) ∧
    decodeWord true (0b1010000100100011 : Opcode) = .ok (.ldI 0x123) ∧
    decodeWord true (0b1011111111111111 : Opcode) = .ok (.jpV0 0xFFF) :=
  ⟨rfl, rfl, rfl, rfl⟩

/-- Families 3, 4, 6, 7 and C: X in bits 11..8, KK in bits 7..0. -/
theorem test_decode_xkk :
    decodeWord true (0b0011001101000010 : Opcode) = .ok (.seImm 3 0x42) ∧
    decodeWord true (0b0100001101000010 : Opcode) = .ok (.sneImm 3 0x42) ∧
    decodeWord true (0b0110101011101010 : Opcode) = .ok (.ldImm 10 0xEA) ∧
    decodeWord true (0b0111000100001010 : Opcode) = .ok (.addImm 1 0x0A) ∧
    decodeWord true (0b1100000100001111 : Opcode) = .ok (.rnd 1 0x0F) :=
  ⟨rfl, rfl, rfl, rfl, rfl⟩

/-- Families 5 and 9: X in bits 11..8, Y in bits 7..4, low nibble 0. -/
theorem test_decode_skip_reg :
    decodeWord true (0b0101000100100000 : Opcode) = .ok (.seReg 1 2) ∧
    decodeWord true (0b1001000100100000 : Opcode) = .ok (.sneReg 1 2) ∧
    decodeWord false (0b0101000100100001 : Opcode) = .ok (.seReg 1 2) ∧
    decodeWord false (0b1001000100101111 : Opcode) = .ok (.sneReg 1 2) :=
  ⟨rfl, rfl, rfl, rfl⟩

/-- Family 8: the low nibble selects. -/
theorem test_decode_8 :
    decodeWord true (0b1000000100100000 : Opcode) = .ok (.ldReg 1 2) ∧
    decodeWord true (0b1000000100100001 : Opcode) = .ok (.orReg 1 2) ∧
    decodeWord true (0b1000000100100010 : Opcode) = .ok (.andReg 1 2) ∧
    decodeWord true (0b1000000100100011 : Opcode) = .ok (.xorReg 1 2) ∧
    decodeWord true (0b1000000100100100 : Opcode) = .ok (.addReg 1 2) ∧
    decodeWord true (0b1000000100100101 : Opcode) = .ok (.sub 1 2) ∧
    decodeWord true (0b1000000100100110 : Opcode) = .ok (.shr 1 2) ∧
    decodeWord true (0b1000000100100111 : Opcode) = .ok (.subn 1 2) ∧
    decodeWord true (0b1000000100101110 : Opcode) = .ok (.shl 1 2) :=
  ⟨rfl, rfl, rfl, rfl, rfl, rfl, rfl, rfl, rfl⟩

/-- Families D and E. -/
theorem test_decode_de :
    decodeWord true (0b1101000100100101 : Opcode) = .ok (.drw 1 2 5) ∧
    decodeWord true (0b1110010110011110 : Opcode) = .ok (.skp 5) ∧
    decodeWord true (0b1110010110100001 : Opcode) = .ok (.sknp 5) :=
  ⟨rfl, rfl, rfl⟩

/-- Family F: the low byte selects. -/
theorem test_decode_f :
    decodeWord true (0b1111010000000111 : Opcode) = .ok (.ldVxDt 4) ∧
    decodeWord true (0b1111001100001010 : Opcode) = .ok (.ldVxK 3) ∧
    decodeWord true (0b1111001100010101 : Opcode) = .ok (.ldDtVx 3) ∧
    decodeWord true (0b1111001100011000 : Opcode) = .ok (.ldStVx 3) ∧
    decodeWord true (0b1111001000011110 : Opcode) = .ok (.addI 2) ∧
    decodeWord true (0b1111010000101001 : Opcode) = .ok (.ldF 4) ∧
    decodeWord true (0b1111010100110011 : Opcode) = .ok (.ldB 5) ∧
    decodeWord true (0b1111111101010101 : Opcode) = .ok (.storeRegs 15) ∧
    decodeWord true (0b1111001001100101 : Opcode) = .ok (.loadRegs 2) :=
  ⟨rfl, rfl, rfl, rfl, rfl, rfl, rfl, rfl, rfl⟩

/-- DC7 to DC10: words no row recognizes. -/
theorem test_decode_unrecognized :
    decodeWord true 0x5121 = .error (.unrecognized 0x5121) ∧
    decodeWord true 0x9121 = .error (.unrecognized 0x9121) ∧
    decodeWord true 0x8008 = .error (.unrecognized 0x8008) ∧
    decodeWord true 0x800C = .error (.unrecognized 0x800C) ∧
    decodeWord true 0x800F = .error (.unrecognized 0x800F) ∧
    decodeWord true 0xE09F = .error (.unrecognized 0xE09F) ∧
    decodeWord true 0xE0A2 = .error (.unrecognized 0xE0A2) ∧
    decodeWord true 0xF000 = .error (.unrecognized 0xF000) ∧
    decodeWord true 0xF01F = .error (.unrecognized 0xF01F) ∧
    decodeWord true 0xF066 = .error (.unrecognized 0xF066) ∧
    decodeWord true 0xFFFF = .error (.unrecognized 0xFFFF) :=
  ⟨rfl, rfl, rfl, rfl, rfl, rfl, rfl, rfl, rfl, rfl, rfl⟩

/-- R43, R60: the byte at the lower address is the high one, and a lone byte is no instruction. -/
theorem test_decode_bytes :
    decodeBytes true [0x12, 0x34, 0x56] = .ok (.jp 0x234, [0x56]) ∧
    decodeBytes true [0x12] = .error .truncated ∧
    encodeBytes (.jp 0x234) = [0x12, 0x34] ∧
    decodeTableWord 16 0x1234 = some (.jp 0x234) ∧ decodeTableWord 16 0x5121 = none :=
  ⟨rfl, rfl, rfl, rfl, rfl⟩

/-! ### One step on a small state -/

/-- Run the word `w` from `s`; the next state must satisfy `p`. -/
def runs (s : State) (w : Nat) (p : State → Bool) : Bool :=
  match step (s.withFetchWord 16 w) with
  | .next t => p t
  | _ => false

/-- Run the word `w` from `s`; the cycle must fault with this cause and fetch address. -/
def traps (s : State) (w : Nat) (c : FaultCause) (fpc : Addr) : Bool :=
  runs s w fun t => t.fault == some { cause := c, fpc := fpc }

/-- Reset with two registers set. -/
def regs (x : Reg) (a : Byte) (y : Reg) (b : Byte) : State :=
  (State.reset.writeV x a).writeV y b

/-- Reset with VF = 0x55 and two registers set. -/
def alu (a b : Byte) : State := (regs 1 a 2 b).writeV regVF 0x55

/-- V1 and VF after. -/
def gives (a f : Byte) (t : State) : Bool := t.readV 1 == a && t.readV regVF == f

/-- Reset with changed parameters. -/
def under (s : State) (p : Params) : State := { s with params := p }

/-- Reset with the coming arguments fixed: the pressed keys and the draw. -/
def given (keys : List (Fin 16)) (draw : Byte) (s : State) : State :=
  { s with inputs :=
      [{ keys := keys.foldl (fun v k => v.set k.val true k.isLt) (.replicate 16 false)
         draw := draw }] }

/-- CF11. -/
theorem test_jp : runs State.reset 0x1234 (fun t => t.pc == 0x234) = true := by decide

/-- CF12: the target 0xFFF is taken; the next cycle is DC3. -/
theorem test_jp_top : runs State.reset 0x1FFF (fun t => t.pc == 0xFFF) = true := by decide

/-- CF7. -/
theorem test_call : runs { State.reset with pc := 0x204 } 0x2300
    (fun t => t.stack.get 0 == 0x206 && t.sp == 1 && t.pc == 0x300) = true := by decide

/-- CF8. -/
theorem test_call_overflow :
    traps { State.reset with sp := 16 } 0x2300 .stackOverflow 0x200 = true := by decide

/-- CF9: the popped entry keeps its value. -/
theorem test_ret : runs { State.reset with sp := 1, stack := State.reset.stack.set 0 0x206 } 0x00EE
    (fun t => t.sp == 0 && t.pc == 0x206 && t.stack.get 0 == 0x206) = true := by decide

/-- CF10. -/
theorem test_ret_underflow : traps State.reset 0x00EE .stackUnderflow 0x200 = true := by decide

/-- DC5, the default. -/
theorem test_sys_fault :
    traps State.reset 0x00E1 (.unrecognizedInstruction 0x00E1) 0x200 = true := by decide

/-- DC5, `SYS_POLICY = nop`. -/
theorem test_sys_nop :
    runs (under State.reset { defaultParams with sysPolicy := .nop }) 0x0000
      (fun t => t.pc == 0x202 && t.fault == none) = true := by decide

/-- CF1, CF2. -/
theorem test_se_imm : runs (State.reset.writeV 3 0x42) 0x3342 (fun t => t.pc == 0x204) = true ∧
    runs (State.reset.writeV 3 0x41) 0x3342 (fun t => t.pc == 0x202) = true := by decide

/-- CF3. -/
theorem test_sne_imm : runs (State.reset.writeV 3 0x41) 0x4342 (fun t => t.pc == 0x204) = true ∧
    runs (State.reset.writeV 3 0x42) 0x4342 (fun t => t.pc == 0x202) = true := by decide

/-- CF4. -/
theorem test_se_reg : runs (regs 1 7 2 7) 0x5120 (fun t => t.pc == 0x204) = true ∧
    runs (regs 1 7 2 8) 0x5120 (fun t => t.pc == 0x202) = true := by decide

/-- CF5. -/
theorem test_sne_reg : runs (regs 1 7 2 8) 0x9120 (fun t => t.pc == 0x204) = true ∧
    runs (regs 1 7 2 7) 0x9120 (fun t => t.pc == 0x202) = true := by decide

/-- CF13. -/
theorem test_jp_v0 : runs (State.reset.writeV 0 0x10) 0xB300 (fun t => t.pc == 0x310) = true := by
  decide

/-- CF14: no reduction to 12 bits. -/
theorem test_jp_v0_top :
    runs (State.reset.writeV 0 0xFF) 0xBFFF (fun t => t.pc == 0x10FE) = true := by decide

/-- AF5 and S1. -/
theorem test_ld_imm : runs (State.reset.writeV 15 9) 0x6F01 (fun t => t.readV 15 == 1) = true := by
  decide

/-- S2: 250 + 10 wraps to 4, VF untouched. -/
theorem test_add_imm : runs (alu 250 0) 0x710A (gives 4 0x55) = true := by decide

/-- AL2. -/
theorem test_ld_reg : runs (alu 0x33 0x44) 0x8120 (gives 0x44 0x55) = true := by decide

/-- AL3. -/
theorem test_or : runs (alu 0x0F 0xF0) 0x8121 (gives 0xFF 0x55) = true := by decide

/-- AL4. -/
theorem test_and : runs (alu 0x3C 0x0F) 0x8122 (gives 0x0C 0x55) = true := by decide

/-- AL5, AL6. -/
theorem test_xor : runs (alu 0x3C 0x0F) 0x8123 (gives 0x33 0x55) = true ∧
    runs (alu 0x3C 0x0F) 0x8113 (gives 0x00 0x55) = true := by decide

/-- S3, AL7, AL8. -/
theorem test_add_reg : runs (alu 200 100) 0x8124 (gives 44 1) = true ∧
    runs (alu 255 1) 0x8124 (gives 0 1) = true ∧
    runs (alu 255 0) 0x8124 (gives 255 0) = true := by decide

/-- AF1 in both orders, and AF4. -/
theorem test_add_reg_vf :
    runs (State.reset.writeV 15 0x80) 0x8FF4 (fun t => t.readV 15 == 1) = true ∧
    runs (under (State.reset.writeV 15 0x80) { defaultParams with vfAliasOrder := .resultLast })
      0x8FF4 (fun t => t.readV 15 == 0) = true ∧
    runs (regs 1 10 15 3) 0x81F4 (gives 13 0) = true := by decide

/-- AL10, AL11, S4. -/
theorem test_sub : runs (alu 20 20) 0x8125 (gives 0 1) = true ∧
    runs (alu 0 255) 0x8125 (gives 1 0) = true ∧
    runs (alu 10 20) 0x8125 (gives 246 0) = true := by decide

/-- AF2 in both orders. -/
theorem test_sub_vf : runs (regs 15 5 1 7) 0x8F15 (fun t => t.readV 15 == 0) = true ∧
    runs (under (regs 15 5 1 7) { defaultParams with vfAliasOrder := .resultLast })
      0x8F15 (fun t => t.readV 15 == 254) = true := by decide

/-- AL13, AL14, AL15. -/
theorem test_subn : runs (alu 20 50) 0x8127 (gives 30 1) = true ∧
    runs (alu 20 10) 0x8127 (gives 246 0) = true ∧
    runs (alu 20 20) 0x8127 (gives 0 1) = true := by decide

/-- AL16, AL18. -/
theorem test_shr : runs (alu 0x05 0) 0x8106 (gives 0x02 1) = true ∧
    runs (alu 0x80 0) 0x8106 (gives 0x40 0) = true := by decide

/-- AL23, both sources. -/
theorem test_shr_source : runs (alu 0x02 0x03) 0x8126 (gives 0x01 0) = true ∧
    runs (under (alu 0x02 0x03) { defaultParams with shiftSource := .vy })
      0x8126 (gives 0x01 1) = true := by decide

/-- AL19, AL20, AL21. -/
theorem test_shl : runs (alu 0x81 0) 0x810E (gives 0x02 1) = true ∧
    runs (alu 0x7F 0) 0x810E (gives 0xFE 0) = true ∧
    runs (alu 0x80 0) 0x810E (gives 0x00 1) = true := by decide

/-- AL22, both sources. -/
theorem test_shl_source : runs (alu 0x01 0x80) 0x812E (gives 0x02 0) = true ∧
    runs (under (alu 0x01 0x80) { defaultParams with shiftSource := .vy })
      0x812E (gives 0x00 1) = true := by decide

/-- AL24. -/
theorem test_rnd : runs (given [] 0xA7 (alu 0 0)) 0xC10F (gives 0x07 0x55) = true := by decide

/-- DS10 on a grid with a set pixel. -/
theorem test_cls : runs { alu 0 0 with grid := State.reset.grid.setPixel 31 63 true } 0x00E0
    (fun t => !t.grid.pixel 31 63 && !t.grid.pixel 0 0 && t.changed && t.readV 15 == 0x55) = true := by decide

/-- A sprite of two rows at 0x300, V0 and V1 its coordinates. -/
def sprite (x y r0 r1 : Byte) : State :=
  { (regs 0 x 1 y).placeBytes 0x300 [r0, r1] with i := 0x300 }

/-- DS2 and DS3: each pixel wraps by itself. -/
theorem test_drw_wrap :
    runs (sprite 63 0 0xC0 0) 0xD011 (fun t => t.grid.pixel 0 63 && t.grid.pixel 0 0 &&
      !t.grid.pixel 0 1 && t.readV 15 == 0 && t.changed) = true ∧
    runs (sprite 0 31 0x80 0x80) 0xD012 (fun t => t.grid.pixel 31 0 && t.grid.pixel 0 0) = true := by
  decide

/-- DS6: a collision. -/
theorem test_drw_collision :
    runs { sprite 0 0 0xC0 0 with grid := State.reset.grid.setPixel 0 0 true } 0xD011
      (fun t => !t.grid.pixel 0 0 && t.grid.pixel 0 1 && t.readV 15 == 1) = true := by decide

/-- DS9 in both samples, DS7 and DS8. -/
theorem test_drw_corners :
    runs ((sprite 0 0 0x80 0).writeV 15 5) 0xDF11 (fun t => t.grid.pixel 0 5) = true ∧
    runs (under ((sprite 0 0 0x80 0).writeV 15 5) { defaultParams with drwVfSample := .afterClear })
      0xDF11 (fun t => t.grid.pixel 0 0) = true ∧
    runs { State.reset.writeV 15 1 with grid := State.reset.grid.setPixel 0 0 true } 0xD010
      (fun t => t.grid.pixel 0 0 && t.readV 15 == 0 && t.changed) = true ∧
    traps { State.reset with i := 0xFFF } 0xD012 (.memoryOutOfRange 0x1000) 0x200 = true := by
  decide

/-- IM1. -/
theorem test_ld_i : runs { State.reset with i := 0xFFFF } 0xA123 (fun t => t.i == 0x123) = true := by
  decide

/-- IM2, IM3, IM4. -/
theorem test_add_i :
    runs { State.reset.writeV 2 1 with i := 0xFFF } 0xF21E
      (fun t => t.i == 0x1000 && t.readV 15 == 1) = true ∧
    runs { State.reset.writeV 2 1 with i := 0xFFE } 0xF21E
      (fun t => t.i == 0xFFF && t.readV 15 == 0) = true ∧
    runs { State.reset.writeV 2 0xFF with i := 0xFFFF } 0xF21E
      (fun t => t.i == 0x00FE && t.readV 15 == 1) = true := by decide

/-- IM5: X names VF. -/
theorem test_add_i_vf : runs { State.reset.writeV 15 0x10 with i := 0x100 } 0xFF1E
    (fun t => t.i == 0x110 && t.readV 15 == 0) = true := by decide

/-- IM6: the whole value, no mask. -/
theorem test_ld_f : runs (State.reset.writeV 4 0xF) 0xF429 (fun t => t.i == 0x04B) = true ∧
    runs (State.reset.writeV 4 0xFF) 0xF429 (fun t => t.i == 0x4FB) = true := by decide

/-- S7 and IM7. -/
theorem test_ld_b :
    runs { State.reset.writeV 5 234 with i := 0x300 } 0xF533
      (fun t => [t.peek 0x300, t.peek 0x301, t.peek 0x302] == [2, 3, 4]) = true ∧
    runs { State.reset.writeV 5 9 with i := 0x300 } 0xF533
      (fun t => [t.peek 0x300, t.peek 0x301, t.peek 0x302] == [0, 0, 9]) = true := by decide

/-- IM8. -/
theorem test_ld_b_top : traps { State.reset.writeV 5 123 with i := 0xFFE } 0xF533
    (.memoryOutOfRange 0x1000) 0x200 = true := by decide

/-- IM9, and R164 under `x_plus_1`. -/
theorem test_store_regs :
    runs { regs 0 0xAB 1 0xCD with i := 0x300 } 0xF055
      (fun t => t.peek 0x300 == 0xAB && t.peek 0x301 == 0 && t.i == 0x300) = true ∧
    runs (under { regs 0 0xAB 1 0xCD with i := 0x300 }
        { defaultParams with loadStoreInc := .xPlusOne }) 0xF155
      (fun t => t.peek 0x301 == 0xCD && t.i == 0x302) = true := by decide

/-- IM10 and IM11: the block that just fits, and the one that does not. -/
theorem test_store_regs_top :
    runs { State.reset.writeV 15 15 with i := 0xFF0 } 0xFF55
      (fun t => t.peek 0xFFF == 15 && t.fault == none) = true ∧
    traps { State.reset with i := 0xFF1 } 0xFF55 (.memoryOutOfRange 0x1000) 0x200 = true := by
  decide

/-- IM12 under both increments. -/
theorem test_load_regs :
    runs { State.reset.placeBytes 0x300 [7, 8, 9] with i := 0x300 } 0xF265
      (fun t => t.regsUpTo 3 == [7, 8, 9, 0] && t.i == 0x300) = true ∧
    runs (under { State.reset.placeBytes 0x300 [7, 8, 9] with i := 0x300 }
        { defaultParams with loadStoreInc := .xPlusOne }) 0xF265
      (fun t => t.i == 0x303) = true := by decide

/-- IM13: glyph 0 of the default font. -/
theorem test_load_glyph : runs State.reset 0xF465
    (fun t => t.regsUpTo 4 == [0xF0, 0x90, 0x90, 0x90, 0xF0]) = true := by decide

/-- IT1. -/
theorem test_skp : runs (given [7] 0 (State.reset.writeV 5 7)) 0xE59E (fun t => t.pc == 0x204) = true ∧
    runs (given [] 0 (State.reset.writeV 5 7)) 0xE59E (fun t => t.pc == 0x202) = true := by decide

/-- IT3. -/
theorem test_skp_range :
    traps (State.reset.writeV 5 16) 0xE59E (.keyIndexOutOfRange 16) 0x200 = true ∧
    traps (State.reset.writeV 5 16) 0xE5A1 (.keyIndexOutOfRange 16) 0x200 = true := by decide

/-- IT2. -/
theorem test_sknp : runs (given [] 0 (State.reset.writeV 5 7)) 0xE5A1 (fun t => t.pc == 0x204) = true ∧
    runs (given [7] 0 (State.reset.writeV 5 7)) 0xE5A1 (fun t => t.pc == 0x202) = true := by decide

/-- IT4: the lowest of several keys. -/
theorem test_ld_k : runs (given [3, 9] 0 { State.reset with pc := 0x206 }) 0xF30A
    (fun t => t.readV 3 == 3 && t.pc == 0x208) = true := by decide

/-- IT5: no key, so pc is rewound while the timer ticks. -/
theorem test_ld_k_waits :
    runs (given [] 0 { State.reset.writeV 3 0x77 with pc := 0x206, dt := 2 }) 0xF30A
      (fun t => t.readV 3 == 0x77 && t.pc == 0x206 && t.dt == 1) = true := by decide

/-- IT6, IT7. -/
theorem test_ld_vx_dt :
    runs { State.reset with dt := 9 } 0xF407 (fun t => t.readV 4 == 9 && t.dt == 8) = true ∧
    runs State.reset 0xF407 (fun t => t.readV 4 == 0 && t.dt == 0) = true := by decide

/-- IT8. -/
theorem test_ld_dt : runs (State.reset.writeV 3 255) 0xF315 (fun t => t.dt == 254) = true ∧
    runs State.reset 0xF315 (fun t => t.dt == 0) = true := by decide

/-- IT9. -/
theorem test_ld_st : runs (State.reset.writeV 3 3) 0xF318 (fun t => t.st == 2) = true := by decide

/-! ### The cycle -/

/-- DC2: no alignment check. -/
theorem test_fetch_odd : runs { State.reset with pc := 0x201 } 0x6007
    (fun t => t.readV 0 == 7 && t.pc == 0x203) = true := by decide

/-- DC3 and CF14, second cycle: the first address above 0xFFF. -/
theorem test_fetch_top :
    traps { State.reset with pc := 0xFFF } 0x00E0 (.memoryOutOfRange 0x1000) 0xFFF = true ∧
    traps { State.reset with pc := 0x10FE } 0x00E0 (.memoryOutOfRange 0x10FE) 0x10FE = true := by
  decide

/-- DC4: the last word of memory executes. -/
theorem test_fetch_last : runs { State.reset with pc := 0xFFE } 0x00E0
    (fun t => t.pc == 0x1000 && t.fault == none) = true := by decide

/-- P6, second cycle: an unrecognized word, the record naming where it stood. -/
theorem test_unrecognized : traps { State.reset with pc := 0x202 } 0x5121
    (.unrecognizedInstruction 0x5121) 0x202 = true := by decide

/-- DC11: a halted core has no step. -/
theorem test_halted : (match step { State.reset with fault := some ⟨.stackOverflow, 0x200⟩ } with
    | .fault r => r == .halted ⟨.stackOverflow, 0x200⟩
    | _ => false) = true := by decide

/-- DC12: the changed flag in the cycle after CLS, under both policies. -/
theorem test_changed :
    runs { State.reset with changed := true } 0x6001 (fun t => t.changed == false) = true ∧
    runs (under { State.reset with changed := true } { defaultParams with changedPolicy := .sticky })
      0x6001 (fun t => t.changed) = true := by decide

/-- R248: a run is finished at the first boundary at END_PC, here after one cycle, and at no other. -/
theorem test_run_end : ((State.reset.withFetchWord 16 0x1204).finishedAfter 0x204 1).isSome = true ∧
    ((State.reset.withFetchWord 16 0x1204).finishedAfter 0x204 0).isSome = false ∧
    ((State.reset.withFetchWord 16 0x1204).finishedAfter 0x204 2).isSome = false := by decide

/-- P3, after its cycle 7: the run is finished at 0x20E with changed set, and a cycle later it is not
finished again, though pc is there once more. -/
theorem test_run_end_self_jump :
    (({ State.reset with pc := 0x20E, changed := true }.withFetchWord 16 0x120E).finishedAfter
      0x20E 0).map State.changed = some true ∧
    (({ State.reset with pc := 0x20E, changed := true }.withFetchWord 16 0x120E).finishedAfter
      0x20E 1).isSome = false := by decide

/-- R240, R242: after the boot of P6 the first two bytes stand at 0x200. -/
theorem test_boot : (match State.boot defaultParams (some [0x60, 0x01]) with
    | some s => s.peek 0x200 == 0x60 && s.peek 0x201 == 0x01 && s.peek 0x202 == 0 && s.pc == 0x200
    | none => false) = true := by decide

/-- R210: the host clears the flag under `sticky` alone. -/
theorem test_clear_changed :
    (State.clearChanged { State.reset with changed := true }).changed = true ∧
    (State.clearChanged (under { State.reset with changed := true }
      { defaultParams with changedPolicy := .sticky })).changed = false := by decide

/-! ### Witnesses: for every statement with hypotheses, a state and operands that meet them -/

/-- The reset state with the given word at pc. -/
def placed (w : Nat) : State := State.reset.withFetchWord 16 w

/-- O1: an address of the font's last byte, the next one, and the last of all. -/
theorem witness_initialize : (79 ≤ 0xFFF ∧ 79 < 80) ∧ (80 ≤ 0xFFF ∧ ¬ 80 < 80) ∧ 0xFFF ≤ 0xFFF := by
  decide

/-- O3: canonical memory, and an index at the first and the last byte of a load. -/
theorem witness_load_program : State.reset.memWf ∧ 0 < [0xAB#8].length ∧
    3583 < (List.replicate 3585 (0 : Byte)).length := by
  refine ⟨by decide, by decide, ?_⟩
  rw [List.length_replicate]
  decide

/-- O5: the invariant and a next state. -/
theorem witness_step_keeps_invariant : State.reset.Inv ∧ ∃ t, step State.reset = .next t :=
  ⟨by decide, _, rfl⟩

/-- O6: both clauses where they meet. -/
theorem witness_memory_access : (0xFFF < 0x1000) ∧ (0xFFF ≤ 0xFFF) ∧
    State.reset.readMem 0x1000 = .error (.memoryOutOfRange 0x1000) ∧
    State.reset.readMem 0xFFF = .ok 0 := ⟨by decide, by decide, rfl, rfl⟩

/-- O7. -/
theorem witness_read_after_write :
    State.reset.memWf ∧ ∃ t, State.reset.writeMem 0xFFF 0xAB = .ok t := ⟨by decide, _, rfl⟩

/-- O8. -/
theorem witness_decode_of_encode : (Instr.sys 0x0EF).wellFormed = true ∧
    (Instr.loadRegs 15).wellFormed = true := by decide

/-- O9. -/
theorem witness_encode_of_decode : decodeWord true 0x00EF = .ok (.sys 0x0EF) ∧
    decodeWord true 0x9FF0 = .ok (.sneReg 15 15) := ⟨rfl, rfl⟩

/-- O11: a listed word for each line of R66, and one that is not listed. -/
theorem witness_unrecognized_words :
    (0x5121 / 0x1000 = 5 ∧ 0x5121 % 0x10 ≠ 0) ∧ (0x800F / 0x1000 = 8 ∧ 0x800F % 0x10 = 0xF) ∧
    (0xE09F / 0x1000 = 0xE ∧ 0xE09F % 0x100 = 0x9F) ∧
    (0xF066 / 0x1000 = 0xF ∧ 0xF066 % 0x100 = 0x66) ∧
    (0x8007 / 0x1000 = 8 ∧ 0x8007 % 0x10 = 7) := by decide

/-- O14, O15, O16: a running state whose two bytes at pc decode, and that steps to a running state. -/
theorem witness_step_runs : (placed 0x00E0).running ∧
    (placed 0x00E0).readMem (placed 0x00E0).pc.toNat = .ok 0x00 ∧
    (placed 0x00E0).readMem ((placed 0x00E0).pc.toNat + 1) = .ok 0xE0 ∧
    decodeWord (placed 0x00E0).params.strictSkip (0x00#8 ++ 0xE0#8) = .ok .cls ∧
    ∃ t, step (placed 0x00E0) = .next t ∧ t.running :=
  ⟨rfl, rfl, rfl, rfl, _, rfl, rfl⟩

/-- O15: the clauses of the timer loads. -/
theorem witness_timer_loads : (placed 0xF315).running ∧
    (placed 0xF315).readMem (placed 0xF315).pc.toNat = .ok 0xF3 ∧
    (placed 0xF315).readMem ((placed 0xF315).pc.toNat + 1) = .ok 0x15 ∧
    decodeWord (placed 0xF315).params.strictSkip (0xF3#8 ++ 0x15#8) = .ok (.ldDtVx 3) ∧
    decodeWord (placed 0xF315).params.strictSkip (0xF3#8 ++ 0x18#8) = .ok (.ldStVx 3) ∧
    ∃ t, step (placed 0xF315) = .next t ∧ t.running :=
  ⟨rfl, rfl, rfl, rfl, rfl, _, rfl, rfl⟩

/-- O17: the first pc that cannot be fetched from, the next one, and the largest. -/
theorem witness_fetch_outside : State.reset.running ∧ 0xFFE < (0xFFF#16).toNat ∧
    0xFFE < (0x1000#16).toNat ∧ 0xFFE < (0xFFFF#16).toNat := by decide

/-- O18. -/
theorem witness_unrecognized_fetch : (placed 0x5121).running ∧
    (placed 0x5121).readMem (placed 0x5121).pc.toNat = .ok 0x51 ∧
    (placed 0x5121).readMem ((placed 0x5121).pc.toNat + 1) = .ok 0x21 ∧
    decodeWord (placed 0x5121).params.strictSkip (0x51#8 ++ 0x21#8) =
      .error (.unrecognized 0x5121) := ⟨rfl, rfl, rfl, rfl⟩

/-- O19. -/
theorem witness_halted : ∃ s : State, ∃ r, s.fault = some r :=
  ⟨{ State.reset with fault := some ⟨.stackOverflow, 0x200⟩ }, _, rfl⟩

/-- O20. -/
theorem witness_running : State.reset.running := rfl

/-- O21: each cause, at the boundary that raises it. -/
theorem witness_fault_records :
    (∃ t r, exec (.sys 0x0EF) State.reset = .next t ∧ t.fault = some r) ∧
    (∃ t r, exec (.ldB 0) { State.reset with i := 0xFFE } = .next t ∧ t.fault = some r) ∧
    (∃ t r, exec (.drw 0 1 1) { State.reset with i := 0x1000 } = .next t ∧ t.fault = some r) ∧
    (∃ t r, exec (.call 0x300) { State.reset with sp := 16 } = .next t ∧ t.fault = some r) ∧
    (∃ t r, exec .ret State.reset = .next t ∧ t.fault = some r) ∧
    (∃ t r, exec (.sknp 5) (State.reset.writeV 5 16) = .next t ∧ t.fault = some r) :=
  ⟨⟨_, _, rfl, rfl⟩, ⟨_, _, rfl, rfl⟩, ⟨_, _, rfl, rfl⟩, ⟨_, _, rfl, rfl⟩, ⟨_, _, rfl, rfl⟩,
    ⟨_, _, rfl, rfl⟩⟩

/-- O22 to O28: one instruction that meets the hypotheses of every whole-machine frame. -/
theorem witness_frames : ∃ t, exec (.ldImm 3 7) State.reset = .next t ∧ t.running ∧
    (4 : Reg) ∉ (Instr.ldImm 3 7).mayWrite ∧ Instr.ldImm 3 7 ≠ .cls ∧ Instr.ldImm 3 7 ≠ .ret ∧
    (∀ (x y : Reg) (n : BitVec 4), Instr.ldImm 3 7 ≠ .drw x y n) ∧
    (∀ x : Reg, Instr.ldImm 3 7 ≠ .ldB x ∧ Instr.ldImm 3 7 ≠ .storeRegs x ∧
      Instr.ldImm 3 7 ≠ .loadRegs x) ∧
    (∀ nnn : BitVec 12, Instr.ldImm 3 7 ≠ .jp nnn ∧ Instr.ldImm 3 7 ≠ .call nnn ∧
      Instr.ldImm 3 7 ≠ .jpV0 nnn ∧ Instr.ldImm 3 7 ≠ .ldI nnn) ∧
    (∀ x : Reg, Instr.ldImm 3 7 ≠ .addI x ∧ Instr.ldImm 3 7 ≠ .ldF x) ∧
    (∀ (x : Reg) (kk : Byte), Instr.ldImm 3 7 ≠ .seImm x kk ∧ Instr.ldImm 3 7 ≠ .sneImm x kk) ∧
    (∀ x y : Reg, Instr.ldImm 3 7 ≠ .seReg x y ∧ Instr.ldImm 3 7 ≠ .sneReg x y) ∧
    (∀ x : Reg, Instr.ldImm 3 7 ≠ .skp x ∧ Instr.ldImm 3 7 ≠ .sknp x ∧
      Instr.ldImm 3 7 ≠ .ldVxK x ∧ Instr.ldImm 3 7 ≠ .ldDtVx x ∧ Instr.ldImm 3 7 ≠ .ldStVx x) :=
  ⟨_, rfl, rfl, by decide, nofun, nofun, nofun, fun _ => ⟨nofun, nofun, nofun⟩,
    fun _ => ⟨nofun, nofun, nofun, nofun⟩, fun _ => ⟨nofun, nofun⟩, fun _ _ => ⟨nofun, nofun⟩,
    fun _ _ => ⟨nofun, nofun⟩, fun _ => ⟨nofun, nofun, nofun, nofun, nofun⟩⟩

/-- O25: a block transfer under `LOADSTORE_I_INCREMENT = none` meets its hypotheses too. -/
theorem witness_block_keeps_index : State.reset.params.loadStoreInc ≠ .xPlusOne ∧
    ∃ t, exec (.storeRegs 15) State.reset = .next t ∧ t.running := ⟨by decide, _, rfl, rfl⟩

/-- O29: SKP with two draws that differ, and RND with two snapshots that differ. -/
theorem witness_arguments :
    (∃ (t : State) (a b : CycleInput), (given [] 0 State.reset).inputs = [a] ∧
      exec (.skp 0) (given [] 0 State.reset) = .next t ∧ t.running ∧ a.keys = b.keys ∧ a.draw ≠ b.draw) ∧
    (∃ (t : State) (a b : CycleInput), (given [] 0 State.reset).inputs = [a] ∧
      exec (.rnd 1 0xFF) (given [] 0 State.reset) = .next t ∧
      t.running ∧ a.draw = b.draw ∧ a.keys ≠ b.keys) :=
  ⟨⟨_, ⟨.replicate 16 false, 0⟩, ⟨.replicate 16 false, 1⟩, rfl, rfl, rfl, rfl, by decide⟩,
    ⟨_, ⟨.replicate 16 false, 0⟩, ⟨.replicate 16 true, 0⟩, rfl, rfl, rfl, rfl, by decide⟩⟩

/-- O30: both policies. -/
theorem witness_sys_policies : State.reset.params.sysPolicy = .fault ∧
    (under State.reset { defaultParams with sysPolicy := .nop }).params.sysPolicy = .nop := by decide

/-- O31 and O33: the depths where the clauses meet, 0, 1, 15 and 16. -/
theorem witness_stack_depths :
    State.reset.sp.val = 0 ∧ ({ State.reset with sp := 1 } : State).sp.val = (0 : Fin 16).val + 1 ∧
    ({ State.reset with sp := 16 } : State).sp.val = (15 : Fin 16).val + 1 ∧
    ({ State.reset with sp := 15 } : State).sp.val = (15 : Fin 16).val ∧
    ({ State.reset with sp := 16 } : State).sp.val = 16 := by decide

/-- O43: both shift sources. -/
theorem witness_shift_sources :
    (∃ src, src = (match State.reset.params.shiftSource with
      | .vx => ((regs 1 0x81 2 0x7F).readV 1).toNat
      | .vy => ((regs 1 0x81 2 0x7F).readV 2).toNat)) ∧
    (under State.reset { defaultParams with shiftSource := .vy }).params.shiftSource = .vy :=
  ⟨⟨_, rfl⟩, rfl⟩

/-- O44: the fixed arguments of a cycle. -/
theorem witness_draw : ∃ a rest, (given [7] 0xA7 State.reset).inputs = a :: rest := ⟨_, _, rfl⟩

/-- O46: a coordinate function under each sample, a height of 0 anywhere, and the sprite that just
fits. -/
theorem witness_drw : (∀ s : State, ∃ coord : Reg → Nat, ∀ r : Reg, coord r =
      if s.params.drwVfSample = .afterClear ∧ r = regVF then 0 else (s.readV r).toNat) ∧
    ((0 : BitVec 4) = 0 ∨ (0xFFFF#16).toNat + (0#4).toNat ≤ 0x1000) ∧
    ((15 : BitVec 4) = 0 ∨ (0xFF1#16).toNat + (15#4).toNat ≤ 0x1000) ∧
    ((1 : BitVec 4) = 0 ∨ (0xFFF#16).toNat + (1#4).toNat ≤ 0x1000) :=
  ⟨fun _ => ⟨_, fun _ => rfl⟩, by decide, by decide, by decide⟩

/-- O47: the sprite one row too high, and the one wholly outside. -/
theorem witness_drw_outside : (15 : BitVec 4) ≠ 0 ∧ 0x1000 < (0xFF2#16).toNat + (15#4).toNat ∧
    0x1000 < (0x1000#16).toNat + (1#4).toNat := by decide

/-- O48: a sprite over one pixel that is set and one that is clear, and one that reaches the last byte
of memory. -/
theorem witness_draw_twice : (0 : Reg) ≠ regVF ∧ (1 : Reg) ≠ regVF ∧
    (sprite 63 31 0xC0 0).i.toNat + (1#4).toNat ≤ 0x1000 ∧
    (∃ t, exec (.drw 0 1 1) { sprite 63 31 0xC0 0 with
      grid := State.reset.grid.setPixel 31 63 true } = .next t) ∧
    (0xFFF#16).toNat + (1#4).toNat ≤ 0x1000 ∧
    ∃ t, exec (.drw 0 1 1) { State.reset with i := 0xFFF } = .next t :=
  ⟨by decide, by decide, by decide, ⟨_, rfl⟩, by decide, _, rfl⟩

/-- O52: both clauses where they meet, I + 2 = 0xFFF and 0x1000, and I itself outside. -/
theorem witness_ld_b : State.reset.memWf ∧ (0xFFD#16).toNat + 2 ≤ 0xFFF ∧
    0xFFF < (0xFFE#16).toNat + 2 ∧ 0xFFF < (0x1000#16).toNat + 2 := by decide

/-- O53 and O54: both clauses where they meet, for one register and for all sixteen. -/
theorem witness_blocks : State.reset.memWf ∧ (0xFFF#16).toNat + (0 : Reg).val ≤ 0xFFF ∧
    0xFFF < (0x1000#16).toNat + (0 : Reg).val ∧ (0xFF0#16).toNat + (15 : Reg).val ≤ 0xFFF ∧
    0xFFF < (0xFF1#16).toNat + (15 : Reg).val ∧ (0 : Reg) ≤ 15 := by decide

/-- O55: S8, the registers cleared in between. -/
theorem witness_block_round_trip : ∃ t u : State,
    ({ regs 0 11 3 44 with i := 0x300 } : State).memWf ∧ (0x300#16).toNat + (3 : Reg).val ≤ 0xFFF ∧
    exec (.storeRegs 3) { regs 0 11 3 44 with i := 0x300 } = .next t ∧
    u.mem = t.mem ∧ u.params = t.params ∧ u.i = 0x300 ∧ u.readV 0 = 0 ∧ u.readV 3 = 0 :=
  ⟨_, { State.reset.placeBytes 0x300 [11, 0, 0, 44] with i := 0x300 }, by decide, by decide, rfl,
    by decide, rfl, rfl, rfl, rfl⟩

/-- O56: the innermost call with the stack it left, and the outermost one after its routine made a
call of its own, whose entry is stale. -/
theorem witness_call_ret :
    (({ State.reset with sp := 15 } : State).sp.val < 16 ∧
      ∃ t, exec (.call 0x300) { State.reset with sp := 15 } = .next t ∧ t.sp.val = 16) ∧
    State.reset.sp.val < 16 ∧
    ∃ t u : State, exec (.call 0x300) State.reset = .next t ∧ u.sp = t.sp ∧
      (∀ k : Fin 16, k.val < t.sp.val → u.stack.get k = t.stack.get k) ∧ u.stack ≠ t.stack :=
  ⟨⟨by decide, _, rfl, rfl⟩, by decide, _,
    { State.reset with sp := 1, stack := (State.reset.stack.set 0 0x200).set 1 0x302 },
    rfl, rfl, by decide, by decide⟩

/-- O57: both clauses where they meet, key 15 and key 16, and key 0. -/
theorem witness_key_skips :
    ((State.reset.writeV 5 15).readV 5).toNat = (15 : Fin 16).val ∧
    ((State.reset.writeV 5 0).readV 5).toNat = (0 : Fin 16).val ∧
    15 < ((State.reset.writeV 5 16).readV 5).toNat := by decide

/-- O58: the lowest key 0, the lowest key 15, and no key. -/
theorem witness_key_wait :
    (given [0] 0 State.reset).cycleInput.keys.get 0 = true ∧
    (∀ j : Fin 16, j < 0 → (given [0] 0 State.reset).cycleInput.keys.get j = false) ∧
    (given [15] 0 State.reset).cycleInput.keys.get 15 = true ∧
    (∀ j : Fin 16, j < 15 → (given [15] 0 State.reset).cycleInput.keys.get j = false) ∧
    (∀ k : Fin 16, (given [] 0 State.reset).cycleInput.keys.get k = false) := by decide

end Sys2Proof.Tests
end

/-! SUPPORT. Proofs of the statements on the state (spec/10_state.md): what each instruction does
when it raises no fault (`Completes`), its frame read off that (`Completes.sameBut`), and from these
the statements on who writes what, on the invariant, and on the arguments of the cycle. -/

namespace Sys2Proof.Laws

open Sys2Proof.Machine

/-! ### Frames of the shared operations (`State.sameBut`) -/

section Frames

variable {c : Changes} {s t u : State}

theorem sameBut_refl (c : Changes) (s : State) : s.sameBut c s := by simp [State.sameBut]

theorem sameBut_trans (hst : s.sameBut c t) (htu : t.sameBut c u) : s.sameBut c u := by
  unfold State.sameBut at *
  grind

theorem sameBut_writeV {x : Reg} (hx : x ∈ c.regs) (b : Byte) : s.sameBut c (s.writeV x b) := by
  have hne : ∀ r ∉ c.regs, r ≠ x := fun r hr => (ne_of_mem_of_not_mem hx hr).symm
  simp +contextual [State.sameBut, hne]

theorem sameBut_jumpTo (hpc : c.pc = true) (a : Addr) : s.sameBut c (s.jumpTo a) := by
  simp [State.sameBut, hpc]

theorem sameBut_skipIf (hpc : c.pc = true) (b : Bool) : s.sameBut c (s.skipIf b) := by
  simp [State.sameBut, hpc]

theorem sameBut_writeResultAndFlag {x : Reg} (hx : x ∈ c.regs) (hf : regVF ∈ c.regs)
    (b f : Byte) : s.sameBut c (s.writeResultAndFlag x b f) := by
  unfold State.writeResultAndFlag
  split
  · exact sameBut_trans (sameBut_writeV hx b) (sameBut_writeV hf f)
  · exact sameBut_trans (sameBut_writeV hf f) (sameBut_writeV hx b)

theorem sameBut_pollKey {x : Reg} (hx : x ∈ c.regs) (hpc : c.pc = true) :
    s.sameBut c (s.pollKey x) := by
  unfold State.pollKey
  split
  · exact sameBut_writeV hx _
  · exact sameBut_jumpTo hpc _

theorem sameBut_setIndex (hi : c.i = true) (a : Addr) : s.sameBut c { s with i := a } := by
  simp [State.sameBut, hi, State.readV, State.readMem, State.peek]

theorem sameBut_setDelay (hdt : c.dt = true) (b : Byte) : s.sameBut c { s with dt := b } := by
  simp [State.sameBut, hdt, State.readV, State.readMem, State.peek]

theorem sameBut_setSound (hst : c.st = true) (b : Byte) : s.sameBut c { s with st := b } := by
  simp [State.sameBut, hst, State.readV, State.readMem, State.peek]

theorem sameBut_setGrid (hg : c.grid = true) (hch : c.changed = true) (g : Grid) :
    s.sameBut c { s with grid := g, changed := true } := by
  simp [State.sameBut, hg, hch, State.readV, State.readMem, State.peek]

theorem sameBut_setCalls (hc : c.calls = true) (n : Fin 17) (v : Vector Addr 16) :
    s.sameBut c { s with sp := n, stack := v } := by
  simp [State.sameBut, hc, State.readV, State.readMem, State.peek]

theorem sameBut_afterBlock (hi : s.params.loadStoreInc = .xPlusOne → c.i = true) (x : Reg) :
    s.sameBut c (s.afterBlock x) := by
  unfold State.afterBlock
  split
  · exact sameBut_refl c s
  · next h => exact sameBut_setIndex (hi h) _

theorem sameBut_writeVsFrom {r : Nat} {bs : List Byte}
    (hr : ∀ k : Reg, r ≤ k.val → k.val - r < bs.length → k ∈ c.regs) :
    s.sameBut c (s.writeVsFrom r bs) := by
  have hold : ∀ k ∉ c.regs, (s.writeVsFrom r bs).readV k = s.readV k := fun k hk => by
    rw [writeVsFrom_readV, dif_neg fun h => hk (hr k h.1 h.2)]
  simp +contextual [State.sameBut, hold]

/-- A byte write leaves every other address alone, canonical memory or not. -/
theorem memory_read_write_ne {font : Font} {m : Memory} {a x : Nat} (hx : x ≠ a) (b : Byte) :
    (m.write font a b).read font x = m.read font x := by
  induction m with
  | nil => unfold Memory.write Memory.cons; split <;> simp [memory_read_cons, hx]
  | cons d rest ih =>
    obtain ⟨k, e⟩ := d
    unfold Memory.write Memory.cons
    split
    · split <;> simp [memory_read_cons, hx]
    · split
      · next hak => subst hak; split <;> simp [memory_read_cons, hx]
      · simp [memory_read_cons, ih]

theorem poke_readMem_ne {a x : Nat} (hx : x ≠ a) (b : Byte) :
    (s.poke a b).readMem x = s.readMem x :=
  readMem_eq_iff.2 fun _ => memory_read_write_ne hx b

theorem sameBut_poke {a : Nat} (ha : a ∈ c.stored) (b : Byte) : s.sameBut c (s.poke a b) := by
  have hold : ∀ x ∉ c.stored, (s.poke a b).readMem x = s.readMem x := fun x hx =>
    poke_readMem_ne (ne_of_mem_of_not_mem ha hx).symm b
  simp +contextual [State.sameBut, hold]

theorem mem_addressesFrom {a n x : Nat} : x ∈ addressesFrom a n ↔ a ≤ x ∧ x < a + n := by
  simp only [addressesFrom, List.mem_map, List.mem_range]
  constructor
  · rintro ⟨k, hk, rfl⟩; omega
  · rintro ⟨hle, hlt⟩; exact ⟨x - a, by omega, by omega⟩

theorem sameBut_placeBytes {a : Nat} {bs : List Byte}
    (h : ∀ x ∈ addressesFrom a bs.length, x ∈ c.stored) : s.sameBut c (s.placeBytes a bs) := by
  induction bs generalizing s a with
  | nil => exact sameBut_refl c s
  | cons b rest ih =>
    simp only [mem_addressesFrom, List.length_cons] at h
    have hrest : ∀ x ∈ addressesFrom (a + 1) rest.length, x ∈ c.stored := fun x hx =>
      h x (by rw [mem_addressesFrom] at hx; omega)
    unfold State.placeBytes
    split
    · exact ih hrest
    · exact sameBut_trans (sameBut_poke (h a (by omega)) b) (ih hrest)

theorem sameBut_drawn (hf : regVF ∈ c.regs) (hg : c.grid = true) (hch : c.changed = true)
    (x y : Reg) (bytes : List Byte) : s.sameBut c (s.drawn x y bytes) :=
  sameBut_trans (sameBut_writeV hf _) (sameBut_setGrid hg hch _)

end Frames

/-! ### What an instruction does when it raises no fault -/

/-- THE INSTRUCTION COMPLETES: with the condition under which it raises no fault, the state each
instruction answers. Every meaning of 40_control_flow.md to 44_input_timers.md, said once. -/
inductive Completes (s : State) : Instr → State → Prop where
  | cls : Completes s .cls { s with grid := Grid.clear, changed := true }
  | ret (k : Fin 16) (hsp : s.sp = k.succ) :
      Completes s .ret ({ s with sp := k.castSucc }.jumpTo (s.stack.get k))
  | sys (nnn : BitVec 12) (hp : s.params.sysPolicy = .nop) : Completes s (.sys nnn) s
  | jp (nnn : BitVec 12) : Completes s (.jp nnn) (s.jumpTo (zextNNN nnn))
  | call (nnn : BitVec 12) (k : Fin 16) (hsp : s.sp = k.castSucc) :
      Completes s (.call nnn)
        ({ s with sp := k.succ, stack := s.stack.set k.val s.pc }.jumpTo (zextNNN nnn))
  | seImm (x : Reg) (kk : Byte) : Completes s (.seImm x kk) (s.skipIf (s.readV x == kk))
  | sneImm (x : Reg) (kk : Byte) : Completes s (.sneImm x kk) (s.skipIf (s.readV x != kk))
  | seReg (x y : Reg) : Completes s (.seReg x y) (s.skipIf (s.readV x == s.readV y))
  | ldImm (x : Reg) (kk : Byte) : Completes s (.ldImm x kk) (s.writeV x kk)
  | addImm (x : Reg) (kk : Byte) : Completes s (.addImm x kk) (s.writeV x (s.readV x + kk))
  | ldReg (x y : Reg) : Completes s (.ldReg x y) (s.writeV x (s.readV y))
  | orReg (x y : Reg) : Completes s (.orReg x y) (s.writeV x (s.readV x ||| s.readV y))
  | andReg (x y : Reg) : Completes s (.andReg x y) (s.writeV x (s.readV x &&& s.readV y))
  | xorReg (x y : Reg) : Completes s (.xorReg x y) (s.writeV x (s.readV x ^^^ s.readV y))
  | addReg (x y : Reg) :
      Completes s (.addReg x y) (s.writeResultAndFlag x (s.readV x + s.readV y)
        (carryFlag (s.readV x) (s.readV y)))
  | sub (x y : Reg) :
      Completes s (.sub x y) (s.writeResultAndFlag x (s.readV x - s.readV y)
        (noBorrowFlag (s.readV x) (s.readV y)))
  | shr (x y : Reg) :
      Completes s (.shr x y) (s.writeResultAndFlag x (s.shiftOperand x y >>> 1)
        (shiftRightFlag (s.shiftOperand x y)))
  | subn (x y : Reg) :
      Completes s (.subn x y) (s.writeResultAndFlag x (s.readV y - s.readV x)
        (noBorrowFlag (s.readV y) (s.readV x)))
  | shl (x y : Reg) :
      Completes s (.shl x y) (s.writeResultAndFlag x (s.shiftOperand x y <<< 1)
        (shiftLeftFlag (s.shiftOperand x y)))
  | sneReg (x y : Reg) : Completes s (.sneReg x y) (s.skipIf (s.readV x != s.readV y))
  | ldI (nnn : BitVec 12) : Completes s (.ldI nnn) { s with i := zextNNN nnn }
  | jpV0 (nnn : BitVec 12) :
      Completes s (.jpV0 nnn) (s.jumpTo (jumpOffset (s.readV regV0) nnn))
  | rnd (x : Reg) (kk : Byte) : Completes s (.rnd x kk) (s.writeV x (s.rand8 &&& kk))
  | drw (x y : Reg) (n : BitVec 4) (hfit : n.toNat = 0 ∨ s.base + n.toNat ≤ 0x1000) :
      Completes s (.drw x y n)
        (s.drawn x y ((List.range n.toNat).map fun k => s.peek (s.base + k)))
  | skp (x : Reg) (k : Fin 16) (hk : (s.readV x).toNat = k.val) :
      Completes s (.skp x) (s.skipIf (s.key k))
  | sknp (x : Reg) (k : Fin 16) (hk : (s.readV x).toNat = k.val) :
      Completes s (.sknp x) (s.skipIf (!s.key k))
  | ldVxDt (x : Reg) : Completes s (.ldVxDt x) (s.writeV x s.dt)
  | ldVxK (x : Reg) : Completes s (.ldVxK x) (s.pollKey x)
  | ldDtVx (x : Reg) : Completes s (.ldDtVx x) { s with dt := s.readV x }
  | ldStVx (x : Reg) : Completes s (.ldStVx x) { s with st := s.readV x }
  | addI (x : Reg) :
      Completes s (.addI x)
        ({ s with i := BitVec.ofNat 16 (s.i.toNat + (s.readV x).toNat) }.writeV regVF
          (indexFlag s.i (s.readV x)))
  | ldF (x : Reg) : Completes s (.ldF x) { s with i := glyphAddress (s.readV x) }
  | ldB (x : Reg) (hfit : s.base + 3 ≤ 0x1000) :
      Completes s (.ldB x) (s.placeBytes s.base (bcdDigits (s.readV x)))
  | storeRegs (x : Reg) (hfit : s.base + (x.val + 1) ≤ 0x1000) :
      Completes s (.storeRegs x) ((s.placeBytes s.base (s.regsUpTo x)).afterBlock x)
  | loadRegs (x : Reg) (hfit : s.base + (x.val + 1) ≤ 0x1000) :
      Completes s (.loadRegs x)
        ((s.writeVsFrom 0 ((List.range (x.val + 1)).map fun k => s.peek (s.base + k))).afterBlock x)

/-- `exec` answers the state an instruction that completes leaves. -/
theorem Completes.exec_eq {s t : State} {i : Instr} (h : Completes s i t) :
    exec i s = .next t := by
  cases h with
  | ret k hsp =>
    have hne : s.sp.val ≠ 0 := by simp [hsp]
    simp [exec, execRet, popPc_ok s hne, hsp, State.jumpTo, Vector.get_eq_getElem, Fin.ext_iff]
  | sys nnn hp => simp [exec, execSys, hp]
  | call nnn k hsp => simp [exec, execCall, State.push, hsp, State.jumpTo, Fin.succ]
  | drw x y n hfit => simp [exec, execDrw, loadBytes_ok s hfit]
  | skp x k hk => simp [exec, execSkp, State.keyOf, hk]
  | sknp x k hk => simp [exec, execSknp, State.keyOf, hk]
  | ldB x hfit => simp [exec, execLdB, storeBytes_ok s (bs := bcdDigits (s.readV x)) hfit]
  | storeRegs x hfit =>
    simp [exec, execStoreRegs, storeBytes_ok s (bs := s.regsUpTo x) (by rwa [regsUpTo_length])]
  | loadRegs x hfit => simp [exec, execLoadRegs, loadBytes_ok s (.inr hfit)]
  | _ => rfl

/-- WHAT AN INSTRUCTION CAN DO: it completes, or it raises a fault; `exec` is total. -/
theorem exec_completes_or_raises (i : Instr) (s : State) :
    (∃ t, Completes s i t) ∨ ∃ c, exec i s = .next (s.raise c) := by
  cases i with
  | ret =>
    by_cases h : s.sp.val = 0
    · exact .inr ⟨.stackUnderflow, by simp [exec, execRet, popPc_error s h]⟩
    · exact .inl ⟨_, .ret ⟨s.sp.val - 1, by omega⟩ (Fin.ext (by simp; omega))⟩
  | sys nnn =>
    cases h : s.params.sysPolicy with
    | fault => exact .inr ⟨.unrecognizedInstruction (encode (.sys nnn)), by simp [exec, execSys, h]⟩
    | nop => exact .inl ⟨_, .sys nnn h⟩
  | call nnn =>
    by_cases h : s.sp.val = 16
    · exact .inr ⟨.stackOverflow, by simp [exec, execCall, push_error s _ h]⟩
    · exact .inl ⟨_, .call nnn ⟨s.sp.val, by omega⟩ rfl⟩
  | drw x y n =>
    by_cases h : n.toNat = 0 ∨ s.base + n.toNat ≤ 0x1000
    · exact .inl ⟨_, .drw x y n h⟩
    · have hload := loadBytes_error s (a := s.base) (n := n.toNat) (by omega) (by omega)
      exact .inr ⟨.memoryOutOfRange (max s.base 0x1000), by simp [exec, execDrw, hload]⟩
  | skp x =>
    by_cases h : (s.readV x).toNat < 16
    · exact .inl ⟨_, .skp x ⟨_, h⟩ rfl⟩
    · have hkey := keyOf_error s x (by omega)
      exact .inr ⟨.keyIndexOutOfRange (s.readV x), by simp [exec, execSkp, hkey]⟩
  | sknp x =>
    by_cases h : (s.readV x).toNat < 16
    · exact .inl ⟨_, .sknp x ⟨_, h⟩ rfl⟩
    · have hkey := keyOf_error s x (by omega)
      exact .inr ⟨.keyIndexOutOfRange (s.readV x), by simp [exec, execSknp, hkey]⟩
  | ldB x =>
    by_cases h : s.base + 3 ≤ 0x1000
    · exact .inl ⟨_, .ldB x h⟩
    · have hstore := storeBytes_error s (a := s.base) (bs := bcdDigits (s.readV x))
        (by simp [bcdDigits]) (by simp [bcdDigits]; omega)
      exact .inr ⟨.memoryOutOfRange (max s.base 0x1000), by simp [exec, execLdB, hstore]⟩
  | storeRegs x =>
    by_cases h : s.base + (x.val + 1) ≤ 0x1000
    · exact .inl ⟨_, .storeRegs x h⟩
    · have hlen := regsUpTo_length s x
      have hstore := storeBytes_error s (a := s.base) (bs := s.regsUpTo x)
        (List.ne_nil_of_length_pos (by omega)) (by omega)
      exact .inr ⟨.memoryOutOfRange (max s.base 0x1000), by simp [exec, execStoreRegs, hstore]⟩
  | loadRegs x =>
    by_cases h : s.base + (x.val + 1) ≤ 0x1000
    · exact .inl ⟨_, .loadRegs x h⟩
    · have hload := loadBytes_error s (a := s.base) (n := x.val + 1) (by omega) (by omega)
      exact .inr ⟨.memoryOutOfRange (max s.base 0x1000), by simp [exec, execLoadRegs, hload]⟩
  | _ => exact .inl ⟨_, by constructor⟩

theorem exec_next_cases {i : Instr} {s t : State} (h : exec i s = .next t) :
    Completes s i t ∨ ∃ c, t = s.raise c := by
  obtain ⟨u, hu⟩ | ⟨c, hc⟩ := exec_completes_or_raises i s
  · obtain rfl : u = t := Host.Outcome.next.inj (hu.exec_eq.symm.trans h)
    exact .inl hu
  · exact .inr ⟨c, Host.Outcome.next.inj (h.symm.trans hc)⟩

/-- An instruction that answers a running state has completed. -/
theorem completes_of_running {i : Instr} {s t : State} (h : exec i s = .next t)
    (ht : t.running) : Completes s i t := by
  obtain hc | ⟨c, rfl⟩ := exec_next_cases h
  · exact hc
  · simp [State.running] at ht

/-! ### What an instruction may change -/

/-- What an instruction that completes may change: the writers of R20 to R27 and R45. -/
def mayChange (s : State) (i : Instr) : Changes :=
  match i with
  | .cls => { grid := true, changed := true }
  | .drw _ _ _ => { regs := i.mayWrite, grid := true, changed := true }
  | .ret | .call _ => { pc := true, calls := true }
  | .jp _ | .jpV0 _ | .seImm _ _ | .sneImm _ _ | .seReg _ _ | .sneReg _ _ | .skp _ | .sknp _ =>
    { pc := true }
  | .ldVxK _ => { regs := i.mayWrite, pc := true }
  | .sys _ => {}
  | .ldImm _ _ | .addImm _ _ | .ldReg _ _ | .orReg _ _ | .andReg _ _ | .xorReg _ _ | .addReg _ _
  | .sub _ _ | .shr _ _ | .subn _ _ | .shl _ _ | .rnd _ _ | .ldVxDt _ => { regs := i.mayWrite }
  | .ldDtVx _ => { dt := true }
  | .ldStVx _ => { st := true }
  | .ldI _ | .ldF _ => { i := true }
  | .addI _ => { regs := i.mayWrite, i := true }
  | .ldB _ => { stored := addressesFrom s.base 3 }
  | .storeRegs x =>
    { i := s.params.loadStoreInc = .xPlusOne, stored := addressesFrom s.base (x.val + 1) }
  | .loadRegs _ => { regs := i.mayWrite, i := s.params.loadStoreInc = .xPlusOne }

/-- THE FRAME OF EVERY INSTRUCTION: one that completes changes nothing but what `mayChange` names. -/
theorem Completes.sameBut {s t : State} {i : Instr} (h : Completes s i t) :
    s.sameBut (mayChange s i) t := by
  cases h with
  | cls => exact sameBut_setGrid rfl rfl _
  | drw x y n => exact sameBut_drawn (by simp [mayChange, Instr.mayWrite]) rfl rfl x y _
  | ret => exact sameBut_trans (sameBut_setCalls rfl _ _) (sameBut_jumpTo rfl _)
  | call => exact sameBut_trans (sameBut_setCalls rfl _ _) (sameBut_jumpTo rfl _)
  | jp | jpV0 => exact sameBut_jumpTo rfl _
  | seImm | sneImm | seReg | sneReg | skp | sknp => exact sameBut_skipIf rfl _
  | ldVxK => exact sameBut_pollKey (by simp [mayChange, Instr.mayWrite]) rfl
  | sys => exact sameBut_refl _ s
  | ldImm | addImm | ldReg | orReg | andReg | xorReg | rnd | ldVxDt =>
    exact sameBut_writeV (by simp [mayChange, Instr.mayWrite]) _
  | addReg | sub | shr | subn | shl =>
    exact sameBut_writeResultAndFlag (by simp [mayChange, Instr.mayWrite])
      (by simp [mayChange, Instr.mayWrite]) _ _
  | ldDtVx => exact sameBut_setDelay rfl _
  | ldStVx => exact sameBut_setSound rfl _
  | ldI | ldF => exact sameBut_setIndex rfl _
  | addI =>
    exact sameBut_trans (sameBut_setIndex rfl _)
      (sameBut_writeV (by simp [mayChange, Instr.mayWrite]) _)
  | ldB => exact sameBut_placeBytes fun a ha => by simpa [mayChange, bcdDigits] using ha
  | storeRegs x =>
    refine sameBut_trans (sameBut_placeBytes fun a ha => ?_) (sameBut_afterBlock (fun h => ?_) x)
    · rwa [regsUpTo_length] at ha
    · simpa [mayChange] using h
  | loadRegs x =>
    refine sameBut_trans (sameBut_writeVsFrom fun k _ hk => ?_)
      (sameBut_afterBlock (fun h => ?_) x)
    · have hkx : k ≤ x := Fin.le_def.2 (by simp at hk; omega)
      simp [mayChange, Instr.mayWrite, hkx]
    · simpa [mayChange] using h

/-! The table read column by column: who may write each piece of state. -/

theorem mayChange_regs (s : State) (i : Instr) : (mayChange s i).regs = i.mayWrite := by
  cases i <;> rfl

theorem mayChange_i (s : State) (i : Instr) :
    (mayChange s i).i = true ↔ (∃ nnn, i = .ldI nnn) ∨ (∃ x, i = .addI x ∨ i = .ldF x) ∨
      s.params.loadStoreInc = .xPlusOne ∧ ∃ x, i = .storeRegs x ∨ i = .loadRegs x := by
  cases i <;> simp [mayChange]

theorem mayChange_pc (s : State) (i : Instr) :
    (mayChange s i).pc = true ↔ i = .ret ∨
      (∃ nnn, i = .jp nnn ∨ i = .call nnn ∨ i = .jpV0 nnn) ∨
      (∃ x kk, i = .seImm x kk ∨ i = .sneImm x kk) ∨
      (∃ x y, i = .seReg x y ∨ i = .sneReg x y) ∨
      ∃ x, i = .skp x ∨ i = .sknp x ∨ i = .ldVxK x := by
  cases i <;> simp [mayChange]

theorem mayChange_calls (s : State) (i : Instr) :
    (mayChange s i).calls = true ↔ i = .ret ∨ ∃ nnn, i = .call nnn := by
  cases i <;> simp [mayChange]

theorem mayChange_dt (s : State) (i : Instr) :
    (mayChange s i).dt = true ↔ ∃ x, i = .ldDtVx x := by
  cases i <;> simp [mayChange]

theorem mayChange_st (s : State) (i : Instr) :
    (mayChange s i).st = true ↔ ∃ x, i = .ldStVx x := by
  cases i <;> simp [mayChange]

theorem mayChange_grid (s : State) (i : Instr) :
    (mayChange s i).grid = true ↔ i = .cls ∨ ∃ x y n, i = .drw x y n := by
  cases i <;> simp [mayChange]

theorem mayChange_changed (s : State) (i : Instr) :
    (mayChange s i).changed = true ↔ i = .cls ∨ ∃ x y n, i = .drw x y n := by
  cases i <;> simp [mayChange]

/-! ### The frame, field by field -/

section FrameByField

variable {s t : State} {i : Instr}

theorem Completes.readV_eq (h : Completes s i t) {r : Reg} (hr : r ∉ i.mayWrite) :
    t.readV r = s.readV r := by
  obtain ⟨hv, -⟩ := h.sameBut
  exact hv r (by rwa [mayChange_regs])

theorem Completes.i_eq (h : Completes s i t) (hi : (mayChange s i).i = false) : t.i = s.i := by
  obtain ⟨-, hkeep, -⟩ := h.sameBut
  exact hkeep hi

theorem Completes.pc_eq (h : Completes s i t) (hi : (mayChange s i).pc = false) :
    t.pc = s.pc := by
  obtain ⟨-, -, hkeep, -⟩ := h.sameBut
  exact hkeep hi

theorem Completes.calls_eq (h : Completes s i t) (hi : (mayChange s i).calls = false) :
    t.sp = s.sp ∧ t.stack = s.stack := by
  obtain ⟨-, -, -, hkeep, -⟩ := h.sameBut
  exact hkeep hi

theorem Completes.dt_eq (h : Completes s i t) (hi : (mayChange s i).dt = false) :
    t.dt = s.dt := by
  obtain ⟨-, -, -, -, hkeep, -⟩ := h.sameBut
  exact hkeep hi

theorem Completes.st_eq (h : Completes s i t) (hi : (mayChange s i).st = false) :
    t.st = s.st := by
  obtain ⟨-, -, -, -, -, hkeep, -⟩ := h.sameBut
  exact hkeep hi

theorem Completes.grid_eq (h : Completes s i t) (hi : (mayChange s i).grid = false) :
    t.grid = s.grid := by
  obtain ⟨-, -, -, -, -, -, hkeep, -⟩ := h.sameBut
  exact hkeep hi

theorem Completes.changed_eq (h : Completes s i t) (hi : (mayChange s i).changed = false) :
    t.changed = s.changed := by
  obtain ⟨-, -, -, -, -, -, -, hkeep, -⟩ := h.sameBut
  exact hkeep hi

theorem Completes.params_eq (h : Completes s i t) : t.params = s.params := by
  obtain ⟨-, -, -, -, -, -, -, -, -, hparams, -⟩ := h.sameBut
  exact hparams

/-- CLS and DRW set the changed flag, and no other instruction touches it (R27). -/
theorem Completes.changed_iff (h : Completes s i t) :
    t.changed = true ↔ s.changed = true ∨ i = .cls ∨ ∃ x y n, i = .drw x y n := by
  rw [← mayChange_changed s]
  cases hi : (mayChange s i).changed with
  | false => simp [h.changed_eq hi]
  | true =>
    obtain rfl | ⟨x, y, n, rfl⟩ := (mayChange_changed s i).1 hi
    · cases h with | cls => simp
    · cases h with | drw => simp

end FrameByField

/-! ### What completing keeps of the invariant -/

section KeepsInvariant

variable {s t : State} {i : Instr}

/-- Memory changes only by the bytes LD B and LD [I] place (R45). -/
theorem Completes.mem_cases (h : Completes s i t) :
    t.mem = s.mem ∨ ∃ a bs, t.mem = (s.placeBytes a bs).mem := by
  cases h with
  | ldB x => exact .inr ⟨_, _, rfl⟩
  | storeRegs x => exact .inr ⟨_, _, afterBlock_mem _ x⟩
  | _ => exact .inl (by simp)

theorem Completes.memWf (h : Completes s i t) (hw : s.memWf) : t.memWf := by
  unfold State.memWf
  rw [h.params_eq]
  obtain hm | ⟨a, bs, hm⟩ := h.mem_cases
  · rwa [hm]
  · rw [hm]
    simpa using placeBytes_wf hw a bs

/-- The stack changes only by the advanced pc that CALL pushes (R24, R103). -/
theorem Completes.stack_cases (h : Completes s i t) :
    t.stack = s.stack ∨ ∃ k : Fin 16, t.stack = s.stack.set k.val s.pc := by
  cases hi : (mayChange s i).calls with
  | false => exact .inl (h.calls_eq hi).2
  | true =>
    obtain rfl | ⟨nnn, rfl⟩ := (mayChange_calls s i).1 hi
    · cases h with | ret => exact .inl rfl
    · cases h with | call _ k => exact .inr ⟨k, rfl⟩

theorem Completes.stack_le (h : Completes s i t) (hpc : s.pc.toNat ≤ 0x1000)
    (hstack : ∀ k : Fin 16, (s.stack.get k).toNat ≤ 0x1000) (k : Fin 16) :
    (t.stack.get k).toNat ≤ 0x1000 := by
  obtain hst | ⟨j, hst⟩ := h.stack_cases
  · rw [hst]; exact hstack k
  · rw [hst, Vector.get_eq_getElem, Vector.getElem_set]
    split
    · exact hpc
    · exact hstack k

theorem zextNNN_le (nnn : BitVec 12) : (zextNNN nnn).toNat ≤ 0xFFF := by
  have := nnn.isLt
  simp only [zextNNN, BitVec.toNat_setWidth]
  omega

theorem jumpOffset_le (b : Byte) (nnn : BitVec 12) : (jumpOffset b nnn).toNat ≤ 0x10FE := by
  have := b.isLt
  have := nnn.isLt
  simp only [jumpOffset, BitVec.toNat_ofNat]
  omega

theorem skipIf_pc_le (hpc : s.pc.toNat ≤ 0x1000) (c : Bool) :
    (s.skipIf c).pc.toNat ≤ 0x1002 := by
  rw [skipIf_pc]
  split
  · bv_omega
  · omega

theorem pollKey_pc_le (hlo : 2 ≤ s.pc.toNat) (hpc : s.pc.toNat ≤ 0x1000) (x : Reg) :
    (s.pollKey x).pc.toNat ≤ 0x1000 := by
  unfold State.pollKey
  split
  · simpa using hpc
  · rw [jumpTo_pc]; bv_omega

/-- The largest value of pc (R23): JP V0 goes furthest. -/
theorem Completes.pc_le (h : Completes s i t) (hlo : 2 ≤ s.pc.toNat) (hpc : s.pc.toNat ≤ 0x1000)
    (hstack : ∀ k : Fin 16, (s.stack.get k).toNat ≤ 0x1000) : t.pc.toNat ≤ 0x10FE := by
  have hkeep := h.pc_eq
  cases h with
  | ret k => exact (hstack k).trans (by decide)
  | jp nnn | call nnn => exact (zextNNN_le nnn).trans (by decide)
  | jpV0 nnn => exact jumpOffset_le _ nnn
  | seImm | sneImm | seReg | sneReg | skp | sknp => exact (skipIf_pc_le hpc _).trans (by decide)
  | ldVxK x => exact (pollKey_pc_le hlo hpc x).trans (by decide)
  | _ => rw [hkeep rfl]; omega

theorem Completes.inv (h : Completes s i t) (hw : s.memWf) (hlo : 2 ≤ s.pc.toNat)
    (hpc : s.pc.toNat ≤ 0x1000) (hstack : ∀ k : Fin 16, (s.stack.get k).toNat ≤ 0x1000) : t.Inv :=
  ⟨h.memWf hw, fun _ => ⟨h.pc_le hlo hpc hstack, h.stack_le hpc hstack⟩⟩

theorem takeFault_inv (s : State) (a : Addr) (c : FaultCause) : (s.takeFault a c).Inv :=
  ⟨takeFault_wf s a c, by simp⟩

theorem endCycle_inv (h : s.Inv) : s.endCycle.Inv := by
  simpa [State.Inv, State.memWf] using h

/-- A fetch that succeeds began at pc at most 0xFFE (R42). -/
theorem pc_le_of_fetch_ok {w : Opcode} (h : s.fetch = .ok w) : s.pc.toNat ≤ 0xFFE := by
  by_contra hgt
  rw [fetch_error s (by omega)] at h
  cases h

end KeepsInvariant

/-! ### The instruction of a cycle -/

/-- A running core that fetches a word of instruction i and does not fault has completed i. -/
theorem completes_of_step {s t : State} {hi lo : Byte} {i : Instr}
    (hhi : s.readMem s.pc.toNat = .ok hi) (hlo : s.readMem (s.pc.toNat + 1) = .ok lo)
    (hd : decodeWord s.params.strictSkip (hi ++ lo) = .ok i) (hstep : step s = .next t)
    (ht : t.running) : ∃ u, Completes s.startCycle.advancePc i u ∧ t = u.endCycle := by
  obtain ⟨-, hcase⟩ := step_next hstep
  cases hcase with
  | fetchFault c hf h => simp [State.running, h] at ht
  | unrecognized w e hf hd' h => simp [State.running, h] at ht
  | ran w j u hf hd' hx h =>
    subst h
    have hw : w = hi ++ lo := by
      have hfetch : s.fetch = .ok (hi ++ lo) := by
        simp [State.fetch, State.loadBytes, hhi, hlo, wordOfBytes]
      rw [startCycle_fetch, hfetch] at hf
      exact (Except.ok.inj hf).symm
    rw [hw, hd] at hd'
    obtain rfl := Except.ok.inj hd'
    exact ⟨u, completes_of_running hx (by simpa [State.running] using ht), rfl⟩

/-! ### Other arguments of the cycle -/

/-- The state with other arguments for the coming cycles (log 2). -/
def withInputs (l : List CycleInput) (s : State) : State := { s with inputs := l }

section OtherInputs

variable {s t : State} {i : Instr} {l : List CycleInput}

@[simp] theorem withInputs_params : (withInputs l s).params = s.params := rfl

theorem skipIf_withInputs (c : Bool) :
    (withInputs l s).skipIf c = withInputs l (s.skipIf c) := by
  cases c <;> rfl

theorem writeResultAndFlag_withInputs (x : Reg) (b f : Byte) :
    (withInputs l s).writeResultAndFlag x b f = withInputs l (s.writeResultAndFlag x b f) := by
  simp only [State.writeResultAndFlag, withInputs_params]
  split <;> rfl

theorem afterBlock_withInputs (x : Reg) :
    (withInputs l s).afterBlock x = withInputs l (s.afterBlock x) := by
  simp only [State.afterBlock, withInputs_params]
  split <;> rfl

theorem writeVsFrom_withInputs (r : Nat) (bs : List Byte) :
    (withInputs l s).writeVsFrom r bs = withInputs l (s.writeVsFrom r bs) := by
  induction bs generalizing s r with
  | nil => rfl
  | cons b rest ih =>
    unfold State.writeVsFrom
    split
    · next hr => exact ih (s := s.writeV ⟨r, hr⟩ b) (r + 1)
    · rfl

theorem placeBytes_withInputs (a : Nat) (bs : List Byte) :
    (withInputs l s).placeBytes a bs = withInputs l (s.placeBytes a bs) := by
  induction bs generalizing s a with
  | nil => rfl
  | cons b rest ih =>
    unfold State.placeBytes
    split
    · exact ih (a + 1)
    · exact ih (s := s.poke a b) (a + 1)

theorem pollKey_withInputs (hkey : ∀ k, (withInputs l s).key k = s.key k) (x : Reg) :
    (withInputs l s).pollKey x = withInputs l (s.pollKey x) := by
  have hlow : (withInputs l s).lowestKey = s.lowestKey := by simp only [State.lowestKey, hkey]
  simp only [State.pollKey, hlow]
  split <;> rfl

/-- An instruction completes alike under other arguments, if the keys agree where it reads them and
the draw where it takes it. -/
theorem Completes.with_other_inputs (h : Completes s i t)
    (hkeys : (∀ k, (withInputs l s).key k = s.key k) ∨
      ∀ x, i ≠ .skp x ∧ i ≠ .sknp x ∧ i ≠ .ldVxK x)
    (hdraw : (withInputs l s).rand8 = s.rand8 ∨ ∀ x kk, i ≠ .rnd x kk) :
    Completes (withInputs l s) i (withInputs l t) := by
  cases h with
  | skp x k hk =>
    have hkey := hkeys.resolve_right fun hne => (hne x).1 rfl
    rw [← skipIf_withInputs, ← hkey]
    exact .skp x k hk
  | sknp x k hk =>
    have hkey := hkeys.resolve_right fun hne => (hne x).2.1 rfl
    rw [← skipIf_withInputs, ← hkey]
    exact .sknp x k hk
  | ldVxK x =>
    have hkey := hkeys.resolve_right fun hne => (hne x).2.2 rfl
    rw [← pollKey_withInputs hkey]
    exact .ldVxK x
  | rnd x kk =>
    have hrand := hdraw.resolve_right fun hne => hne x kk rfl
    rw [← hrand]
    exact .rnd x kk
  | seImm | sneImm | seReg | sneReg => rw [← skipIf_withInputs]; constructor
  | addReg | sub | shr | subn | shl => rw [← writeResultAndFlag_withInputs]; constructor
  | ldB x hfit => rw [← placeBytes_withInputs]; exact .ldB x hfit
  | storeRegs x hfit =>
    rw [← afterBlock_withInputs, ← placeBytes_withInputs]
    exact .storeRegs x hfit
  | loadRegs x hfit =>
    rw [← afterBlock_withInputs, ← writeVsFrom_withInputs]
    exact .loadRegs x hfit
  | ret k hsp => exact .ret k hsp
  | sys nnn hp => exact .sys nnn hp
  | call nnn k hsp => exact .call nnn k hsp
  | drw x y n hfit => exact .drw x y n hfit
  | _ => constructor

end OtherInputs

/-! ### The statements -/

/-- Settles O5: a fault entry leaves canonical memory, and an instruction that completes is bounded by
`Completes.inv`, since the fetch began at pc at most 0xFFE. -/
theorem stepKeepsInvariant : Obligations.StepKeepsInvariant := by
  unfold Obligations.StepKeepsInvariant
  rintro s t ⟨hwf, hrun⟩ hstep
  obtain ⟨hs, hcase⟩ := step_next hstep
  cases hcase with
  | fetchFault c hf ht => exact ht ▸ endCycle_inv (takeFault_inv _ _ c)
  | unrecognized w e hf hd ht => exact ht ▸ endCycle_inv (takeFault_inv _ _ _)
  | ran w i u hf hd hx ht =>
    subst ht
    obtain hu | ⟨c, rfl⟩ := exec_next_cases hx
    · have hpc : s.pc.toNat ≤ 0xFFE := pc_le_of_fetch_ok (startCycle_fetch s ▸ hf)
      have hadv : s.startCycle.advancePc.pc.toNat = s.pc.toNat + 2 := by
        rw [advancePc_pc, startCycle_pc]; bv_omega
      obtain ⟨-, hstack⟩ := hrun hs
      exact endCycle_inv (hu.inv (by simpa [State.memWf] using hwf) (by omega) (by omega)
        (by simpa using hstack))
    · exact endCycle_inv (takeFault_inv _ _ c)

/-- Settles O16: the start of the cycle clears the flag under per_cycle alone, and the instruction
sets it exactly when it is CLS or DRW. -/
theorem changedReportsClsAndDrw : Obligations.ChangedReportsClsAndDrw := by
  unfold Obligations.ChangedReportsClsAndDrw
  intro s t hi lo i _ hhi hlo hd hstep ht
  obtain ⟨u, hu, rfl⟩ := completes_of_step hhi hlo hd hstep ht
  rw [endCycle_changed, hu.changed_iff, advancePc_changed, startCycle_changed]
  cases s.params.changedPolicy <;> simp

/-- Settles O22: the frame names the grid and the changed flag for CLS and DRW alone. -/
theorem onlyClsAndDrwChangeTheGrid : Obligations.OnlyClsAndDrwChangeTheGrid := by
  unfold Obligations.OnlyClsAndDrwChangeTheGrid
  intro i s t h ht hcls hdrw
  have hc := completes_of_running h ht
  have hother : ¬ (i = .cls ∨ ∃ x y n, i = .drw x y n) := by simp [hcls, hdrw]
  exact ⟨hc.grid_eq (Bool.eq_false_iff.2 fun hg => hother ((mayChange_grid s i).1 hg)),
    hc.changed_eq (Bool.eq_false_iff.2 fun hg => hother ((mayChange_changed s i).1 hg))⟩

/-- Settles O24: the frame names the call stack for CALL and RET alone. -/
theorem onlyCallAndRetTouchTheCallStack : Obligations.OnlyCallAndRetTouchTheCallStack := by
  unfold Obligations.OnlyCallAndRetTouchTheCallStack
  intro i s t h ht hret hcall
  refine (completes_of_running h ht).calls_eq (Bool.eq_false_iff.2 fun hc => ?_)
  obtain rfl | ⟨nnn, rfl⟩ := (mayChange_calls s i).1 hc
  · exact hret rfl
  · exact hcall nnn rfl

/-- Settles O25: the frame names I for these instructions alone. -/
theorem onlyNamedInstructionsWriteIndex : Obligations.OnlyNamedInstructionsWriteIndex := by
  unfold Obligations.OnlyNamedInstructionsWriteIndex
  intro i s t h ht hldI haddF hblock
  refine (completes_of_running h ht).i_eq (Bool.eq_false_iff.2 fun hi => ?_)
  obtain ⟨nnn, rfl⟩ | ⟨x, hx⟩ | ⟨hinc, x, hx⟩ := (mayChange_i s i).1 hi
  · exact hldI nnn rfl
  · exact hx.elim (haddF x).1 (haddF x).2
  · exact hx.elim (hblock hinc x).1 (hblock hinc x).2

/-- Settles O26: the registers the frame names are those of `Instr.mayWrite`. -/
theorem onlyDestinationRegistersChange : Obligations.OnlyDestinationRegistersChange := by
  unfold Obligations.OnlyDestinationRegistersChange
  intro i s t r h ht hr
  exact (completes_of_running h ht).readV_eq hr

/-- Settles O27: the frame names DT for LD DT, Vx alone and ST for LD ST, Vx alone. -/
theorem onlyTimerLoadsWriteTimers : Obligations.OnlyTimerLoadsWriteTimers := by
  unfold Obligations.OnlyTimerLoadsWriteTimers
  intro i s t h ht
  have hc := completes_of_running h ht
  constructor
  · intro hne
    refine hc.dt_eq (Bool.eq_false_iff.2 fun hdt => ?_)
    obtain ⟨x, hx⟩ := (mayChange_dt s i).1 hdt
    exact hne x hx
  · intro hne
    refine hc.st_eq (Bool.eq_false_iff.2 fun hst => ?_)
    obtain ⟨x, hx⟩ := (mayChange_st s i).1 hst
    exact hne x hx

/-- Settles O28: the frame names pc for these instructions alone. -/
theorem onlyControlTransfersChangePc : Obligations.OnlyControlTransfersChangePc := by
  unfold Obligations.OnlyControlTransfersChangePc
  intro i s t h ht hret hjump hskipImm hskipReg hkeys
  refine (completes_of_running h ht).pc_eq (Bool.eq_false_iff.2 fun hpc => ?_)
  obtain rfl | ⟨nnn, hj⟩ | ⟨x, kk, hx⟩ | ⟨x, y, hx⟩ | ⟨x, hx⟩ := (mayChange_pc s i).1 hpc
  · exact hret rfl
  · obtain ⟨hjp, hcall, hjpV0⟩ := hjump nnn
    exact hj.elim hjp fun hj => hj.elim hcall hjpV0
  · exact hx.elim (hskipImm x kk).1 (hskipImm x kk).2
  · exact hx.elim (hskipReg x y).1 (hskipReg x y).2
  · obtain ⟨hskp, hsknp, hldK⟩ := hkeys x
    exact hx.elim hskp fun hx => hx.elim hsknp hldK

/-- Settles O29: the instruction completes alike under the other arguments
(`Completes.with_other_inputs`), and `exec` answers what completing leaves. -/
theorem keysAndDrawReachOnlyTheirReaders : Obligations.KeysAndDrawReachOnlyTheirReaders := by
  unfold Obligations.KeysAndDrawReachOnlyTheirReaders
  intro i s t a b rest hin h ht hkeys hdraw
  have hkey : a.keys = b.keys → ∀ k, (withInputs (b :: rest) s).key k = s.key k := fun e k => by
    simp [State.key, State.cycleInput, withInputs, hin, e]
  have hrand : a.draw = b.draw → (withInputs (b :: rest) s).rand8 = s.rand8 := fun e => by
    simp [State.rand8, State.cycleInput, withInputs, hin, e]
  exact ((completes_of_running h ht).with_other_inputs (hkeys.imp_left hkey)
    (hdraw.imp_left hrand)).exec_eq

end Sys2Proof.Laws

/-! SUPPORT. Proofs of the statements on memory (spec/20_memory.md): the bounds of one access (R42),
read after write (R49), the initial contents (R41), and who stores to memory (R45). -/

namespace Sys2Proof.Laws

open Sys2Proof.Machine

/-! ### One byte write (R42) -/

section ByteWrite

variable {s t : State} {a : Nat}

theorem writeMem_ok (s : State) (h : a ≤ 0xFFF) (b : Byte) : s.writeMem a b = .ok (s.poke a b) :=
  if_neg (by omega)

theorem writeMem_error (s : State) (h : 0xFFF < a) (b : Byte) :
    s.writeMem a b = .error (.memoryOutOfRange a) := if_pos h

/-- A byte write takes place exactly when its address is inside memory. -/
theorem writeMem_eq_ok_iff {b : Byte} :
    s.writeMem a b = .ok t ↔ a ≤ 0xFFF ∧ t = s.poke a b := by
  by_cases h : a ≤ 0xFFF
  · simp [writeMem_ok s h, h, eq_comm]
  · simp [writeMem_error s (Nat.lt_of_not_le h), h]

/-- Read after write, with the address check of both accesses. -/
theorem poke_readMem (hw : s.memWf) (ha : a ≤ 0xFFF) (b : Byte) (x : Nat) :
    (s.poke a b).readMem x = if x = a then .ok b else s.readMem x := by
  split
  · next hx => subst hx; rw [readMem_ok _ ha, poke_peek hw, if_pos rfl]
  · next hx => exact poke_readMem_ne hx b

end ByteWrite

/-! ### The initial contents (R41) -/

theorem readV_of_v_eq_replicate {s : State} {b : Byte} (h : s.v = .replicate 16 b) (r : Reg) :
    s.readV r = b := by
  simp [State.readV, h, Vector.get_eq_getElem]

/-- Where no cell is listed, every address reads as the reset contents. -/
theorem peek_of_mem_eq_nil {s : State} (h : s.mem = []) (a : Nat) :
    s.peek a = Memory.initial s.params.font a := by
  rw [State.peek, h, memory_read_nil]

/-! ### Who stores to memory (R45) -/

/-- The table of `mayChange` read at its last column: the addresses LD B and LD [I] store to. -/
theorem mem_mayChange_stored (s : State) (i : Instr) (a : Nat) :
    a ∈ (mayChange s i).stored ↔
      (∃ x, i = .ldB x ∧ s.base ≤ a ∧ a < s.base + 3) ∨
      ∃ x, i = .storeRegs x ∧ s.base ≤ a ∧ a < s.base + (x.val + 1) := by
  cases i <;> simp [mayChange, mem_addressesFrom]

theorem Completes.readMem_eq {s t : State} {i : Instr} (h : Completes s i t) {a : Nat}
    (ha : a ∉ (mayChange s i).stored) : t.readMem a = s.readMem a := by
  obtain ⟨-, -, -, -, -, -, -, -, -, -, -, -, hmem⟩ := h.sameBut
  exact hmem a ha

/-! ### The statements -/

/-- Settles O7: a write that takes place is a `poke` inside memory. -/
theorem readReturnsTheLastWrite : Obligations.ReadReturnsTheLastWrite := by
  unfold Obligations.ReadReturnsTheLastWrite
  intro s t a b hw h
  obtain ⟨ha, rfl⟩ := writeMem_eq_ok_iff.1 h
  exact ⟨poke_readMem hw ha b, sameBut_poke (List.mem_singleton_self a) b, poke_wf hw ha b⟩

/-- Settles O23: the frame names stored addresses for LD B and LD [I] alone. -/
theorem onlyBcdAndBlockStoreWriteMemory : Obligations.OnlyBcdAndBlockStoreWriteMemory := by
  unfold Obligations.OnlyBcdAndBlockStoreWriteMemory
  intro i s t h ht hne a
  refine (completes_of_running h ht).readMem_eq fun ha => ?_
  obtain ⟨x, hx, -⟩ | ⟨x, hx, -⟩ := (mem_mayChange_stored s i a).1 ha
  · exact (hne x).1 hx
  · exact (hne x).2 hx

/-- Settles O1: after initialization every register is the same 0 and no memory cell is listed. -/
theorem initializeZeroesMemoryAndRegisters : Obligations.InitializeZeroesMemoryAndRegisters := by
  unfold Obligations.InitializeZeroesMemoryAndRegisters
  refine fun p => ⟨readV_of_v_eq_replicate rfl, fun a ha => ?_⟩
  rw [readMem_ok _ ha, peek_of_mem_eq_nil rfl]
  rfl

/-- Settles O6: the two sides of the address check, for a read and for a write. -/
theorem memoryAccessAboveTopFaults : Obligations.MemoryAccessAboveTopFaults := by
  unfold Obligations.MemoryAccessAboveTopFaults
  exact fun s a => ⟨fun h => ⟨readMem_error s h, writeMem_error s h⟩,
    fun h => ⟨⟨_, readMem_ok s h⟩, fun b => ⟨_, writeMem_ok s h b⟩⟩⟩

end Sys2Proof.Laws

/-! SUPPORT. Proofs of the statements on the encoding and the cycle (spec/30_encoding.md): the fields of
a word as numbers (R61), the two-level dispatch said once (`Dispatch`, R64) and from it the round trip
with `encode` (R63), the opcode map (R65) and the unrecognized words (R66); then the cycle around the
instruction (R69). -/

namespace Sys2Proof.Laws

open Sys2Proof.Machine

/-! ### The fields of a word as numbers (R61) -/

section FieldValues

variable (w : Opcode)

theorem fieldOp_toNat : (fieldOp w).toNat = w.toNat / 0x1000 := by
  rw [fieldOp, BitVec.extractLsb'_toNat, Nat.shiftRight_eq_div_pow]
  omega

theorem fieldX_val : (fieldX w).val = w.toNat / 0x100 % 0x10 := by
  simp [fieldX, Nat.shiftRight_eq_div_pow]

theorem fieldY_val : (fieldY w).val = w.toNat / 0x10 % 0x10 := by
  simp [fieldY, Nat.shiftRight_eq_div_pow]

theorem fieldN_toNat : (fieldN w).toNat = w.toNat % 0x10 := by
  simp [fieldN, BitVec.extractLsb'_toNat]

theorem fieldKK_toNat : (fieldKK w).toNat = w.toNat % 0x100 := by
  simp [fieldKK, BitVec.extractLsb'_toNat]

theorem fieldNNN_toNat : (fieldNNN w).toNat = w.toNat % 0x1000 := by
  simp [fieldNNN, BitVec.extractLsb'_toNat]

end FieldValues

/-! ### The fields of a word written as a literal -/

theorem fieldOp_ofNat (k : Nat) : fieldOp (BitVec.ofNat 16 k) = BitVec.ofNat 4 (k / 0x1000) := by
  apply BitVec.eq_of_toNat_eq
  rw [fieldOp_toNat, BitVec.toNat_ofNat, BitVec.toNat_ofNat]
  omega

theorem fieldN_ofNat (k : Nat) : fieldN (BitVec.ofNat 16 k) = BitVec.ofNat 4 k := by
  apply BitVec.eq_of_toNat_eq
  rw [fieldN_toNat, BitVec.toNat_ofNat, BitVec.toNat_ofNat]
  omega

theorem fieldKK_ofNat (k : Nat) : fieldKK (BitVec.ofNat 16 k) = BitVec.ofNat 8 k := by
  apply BitVec.eq_of_toNat_eq
  rw [fieldKK_toNat, BitVec.toNat_ofNat, BitVec.toNat_ofNat]
  omega

theorem fieldNNN_ofNat (k : Nat) : fieldNNN (BitVec.ofNat 16 k) = BitVec.ofNat 12 k := by
  apply BitVec.eq_of_toNat_eq
  rw [fieldNNN_toNat, BitVec.toNat_ofNat, BitVec.toNat_ofNat]
  omega

/-! ### A word is its fields, in each format (R63) -/

/-- The low 8 bits are Y and N. -/
theorem fieldKK_eq (w : Opcode) : fieldKK w = regBits (fieldY w) ++ fieldN w := by
  apply BitVec.eq_of_toNat_eq
  have hY : (regBits (fieldY w)).toNat = w.toNat / 0x10 % 0x10 := fieldY_val w
  rw [BitVec.toNat_append, ← Nat.shiftLeft_add_eq_or_of_lt (fieldN w).isLt, hY, fieldN_toNat,
    fieldKK_toNat, Nat.shiftLeft_eq]
  omega

theorem word_eq_XYN (w : Opcode) :
    w = wordXYN (fieldOp w) (fieldX w) (fieldY w) (fieldN w) := by
  rw [wordXYN_eq, ← fieldKK_eq, ← word_eq_XKK]

section Formats

variable {w : Opcode} {op n : BitVec 4} {kk : Byte}

theorem wordNNN_of_fields (hop : fieldOp w = op) : wordNNN op (fieldNNN w) = w := by
  rw [← hop, ← word_eq_NNN]

theorem wordXKK_of_fields (hop : fieldOp w = op) (hkk : fieldKK w = kk) :
    wordXKK op (fieldX w) kk = w := by
  rw [← hop, ← hkk, ← word_eq_XKK]

theorem wordXYN_of_fields (hop : fieldOp w = op) (hn : fieldN w = n) :
    wordXYN op (fieldX w) (fieldY w) n = w := by
  rw [← hop, ← hn, ← word_eq_XYN]

end Formats

/-! ### The first level of the dispatch (R64) -/

/-- What `decodeWord` can answer, by the family of the word. -/
inductive Dispatch (strict : Bool) (w : Opcode) : Except DecodeError Instr → Prop
  | family0 (hop : fieldOp w = 0x0#4) : Dispatch strict w (decodeFamily0 w)
  | jp (hop : fieldOp w = 0x1#4) : Dispatch strict w (.ok (.jp (fieldNNN w)))
  | call (hop : fieldOp w = 0x2#4) : Dispatch strict w (.ok (.call (fieldNNN w)))
  | seImm (hop : fieldOp w = 0x3#4) : Dispatch strict w (.ok (.seImm (fieldX w) (fieldKK w)))
  | sneImm (hop : fieldOp w = 0x4#4) : Dispatch strict w (.ok (.sneImm (fieldX w) (fieldKK w)))
  | seReg (hop : fieldOp w = 0x5#4) :
      Dispatch strict w (decodeSkipReg strict w (.seReg (fieldX w) (fieldY w)))
  | ldImm (hop : fieldOp w = 0x6#4) : Dispatch strict w (.ok (.ldImm (fieldX w) (fieldKK w)))
  | addImm (hop : fieldOp w = 0x7#4) : Dispatch strict w (.ok (.addImm (fieldX w) (fieldKK w)))
  | family8 (hop : fieldOp w = 0x8#4) : Dispatch strict w (decodeFamily8 w)
  | sneReg (hop : fieldOp w = 0x9#4) :
      Dispatch strict w (decodeSkipReg strict w (.sneReg (fieldX w) (fieldY w)))
  | ldI (hop : fieldOp w = 0xA#4) : Dispatch strict w (.ok (.ldI (fieldNNN w)))
  | jpV0 (hop : fieldOp w = 0xB#4) : Dispatch strict w (.ok (.jpV0 (fieldNNN w)))
  | rnd (hop : fieldOp w = 0xC#4) : Dispatch strict w (.ok (.rnd (fieldX w) (fieldKK w)))
  | drw (hop : fieldOp w = 0xD#4) :
      Dispatch strict w (.ok (.drw (fieldX w) (fieldY w) (fieldN w)))
  | familyE (hop : fieldOp w = 0xE#4) : Dispatch strict w (decodeFamilyE w)
  | familyF (hop : fieldOp w = 0xF#4) : Dispatch strict w (decodeFamilyF w)

theorem decodeWord_dispatch (strict : Bool) (w : Opcode) :
    Dispatch strict w (decodeWord strict w) := by
  unfold decodeWord
  split
  case h_16 => -- the arm without a pattern: fifteen families are excluded
    refine .familyF ?_
    generalize fieldOp w = op at *
    decide +revert
  all_goals constructor; assumption

/-! ### Decoding an encoded instruction -/

theorem decodeWord_encode (strict : Bool) {i : Instr} (h : i.wellFormed = true) :
    decodeWord strict (encode i) = .ok i := by
  cases i with
  | cls | ret => rfl
  | sys nnn =>
    have hne : nnn ≠ 0x0E0#12 ∧ nnn ≠ 0x0EE#12 := by simpa [Instr.wellFormed] using h
    simp [encode, decodeWord, decodeFamily0, hne]
  | jp | call | ldI | jpV0 | seImm | sneImm | ldImm | addImm | rnd | drw =>
    simp [encode, decodeWord]
  | seReg | sneReg => simp [encode, decodeWord, decodeSkipReg]
  | ldReg | orReg | andReg | xorReg | addReg | sub | shr | subn | shl =>
    simp [encode, decodeWord, decodeFamily8]
  | skp | sknp => simp [encode, decodeWord, decodeFamilyE]
  | ldVxDt | ldVxK | ldDtVx | ldStVx | addI | ldF | ldB | storeRegs | loadRegs =>
    simp [encode, decodeWord, decodeFamilyF]

theorem decodeBytes_encodeBytes (strict : Bool) {i : Instr} (h : i.wellFormed = true)
    (rest : List Byte) : decodeBytes strict (encodeBytes i ++ rest) = .ok (i, rest) := by
  simp [encodeBytes, decodeBytes, wordOfBytes_split, decodeWord_encode strict h]

/-! ### Encoding a decoded word -/

section EncodeDecoded

variable {w : Opcode} {i : Instr}

theorem encode_of_decodeFamily0 (hop : fieldOp w = 0x0#4) (h : decodeFamily0 w = .ok i) :
    encode i = w ∧ i.wellFormed = true := by
  have hw := wordNNN_of_fields hop
  unfold decodeFamily0 at h
  split at h
  · next hcls => cases h; rw [hcls] at hw; exact ⟨hw, rfl⟩
  · next hcls =>
    split at h
    · next hret => cases h; rw [hret] at hw; exact ⟨hw, rfl⟩
    · next hret => cases h; exact ⟨hw, by simp [Instr.wellFormed, hcls, hret]⟩

theorem encode_of_decodeFamily8 (hop : fieldOp w = 0x8#4) (h : decodeFamily8 w = .ok i) :
    encode i = w ∧ i.wellFormed = true := by
  unfold decodeFamily8 at h
  split at h <;> cases h <;> exact ⟨wordXYN_of_fields hop ‹_›, rfl⟩

theorem encode_of_decodeFamilyE (hop : fieldOp w = 0xE#4) (h : decodeFamilyE w = .ok i) :
    encode i = w ∧ i.wellFormed = true := by
  unfold decodeFamilyE at h
  split at h <;> cases h <;> exact ⟨wordXKK_of_fields hop ‹_›, rfl⟩

theorem encode_of_decodeFamilyF (hop : fieldOp w = 0xF#4) (h : decodeFamilyF w = .ok i) :
    encode i = w ∧ i.wellFormed = true := by
  unfold decodeFamilyF at h
  split at h <;> cases h <;> exact ⟨wordXKK_of_fields hop ‹_›, rfl⟩

theorem decodeSkipReg_eq_ok {strict : Bool} {j : Instr} :
    decodeSkipReg strict w j = .ok i ↔ (strict = true → fieldN w = 0#4) ∧ j = i := by
  unfold decodeSkipReg
  cases strict
  · simp
  · by_cases hn : fieldN w = 0#4 <;> simp [hn]

/-- Under the strict rule a word that decodes is the word of its instruction (R67). -/
theorem encode_of_decodeWord (h : decodeWord true w = .ok i) :
    encode i = w ∧ i.wellFormed = true := by
  have hdispatch := decodeWord_dispatch true w
  generalize decodeWord true w = r at h hdispatch
  cases hdispatch with
  | family0 hop => exact encode_of_decodeFamily0 hop h
  | family8 hop => exact encode_of_decodeFamily8 hop h
  | familyE hop => exact encode_of_decodeFamilyE hop h
  | familyF hop => exact encode_of_decodeFamilyF hop h
  | seReg hop | sneReg hop =>
    obtain ⟨hn, rfl⟩ := decodeSkipReg_eq_ok.1 h
    exact ⟨wordXYN_of_fields hop (hn rfl), rfl⟩
  | jp hop | call hop | ldI hop | jpV0 hop => cases h; exact ⟨wordNNN_of_fields hop, rfl⟩
  | seImm hop | sneImm hop | ldImm hop | addImm hop | rnd hop =>
    cases h; exact ⟨wordXKK_of_fields hop rfl, rfl⟩
  | drw hop => cases h; exact ⟨wordXYN_of_fields hop rfl, rfl⟩

end EncodeDecoded

/-! ### The rows of the opcode map (R65) -/

section Masks

variable {v : Opcode} {build : Opcode → Instr} {w : Opcode}

/-- A row whose value has no bit outside the mask accepts the words equal to that value under the
mask. -/
theorem accepts_eq_decide {mask : Opcode} {p : Prop} [Decidable p] (hv : v &&& mask = v)
    (h : w &&& mask = v &&& mask ↔ p) : OpRow.accepts ⟨mask, v, build⟩ w = decide p := by
  rw [OpRow.accepts, Bool.beq_eq_decide_eq]
  exact decide_eq_decide.2 (hv ▸ h)

theorem accepts_maskAll : OpRow.accepts ⟨0xFFFF#16, v, build⟩ w =
    decide (fieldOp w = fieldOp v ∧ fieldNNN w = fieldNNN v) := by
  have hmask (u : Opcode) : u &&& 0xFFFF#16 = u := BitVec.and_allOnes
  refine accepts_eq_decide (hmask v) ?_
  rw [hmask, hmask]
  refine ⟨fun h => by simp [h], fun ⟨hop, hnnn⟩ => ?_⟩
  rw [word_eq_NNN w, hop, hnnn, ← word_eq_NNN]

theorem accepts_maskOp (hv : v &&& 0xF000#16 = v) : OpRow.accepts ⟨0xF000#16, v, build⟩ w =
    decide (fieldOp w = fieldOp v) := by
  have hmask (u : Opcode) : u &&& 0xF000#16 = wordNNN (fieldOp u) 0 := by
    rw [word_eq_NNN u, mask_wordNNN, fieldOp_wordNNN]
  refine accepts_eq_decide hv ?_
  rw [hmask, hmask]
  exact ⟨fun h => by simpa using congrArg fieldOp h, fun hop => by rw [hop]⟩

theorem accepts_maskN (hv : v &&& 0xF00F#16 = v) : OpRow.accepts ⟨0xF00F#16, v, build⟩ w =
    decide (fieldOp w = fieldOp v ∧ fieldN w = fieldN v) := by
  have hmask (u : Opcode) : u &&& 0xF00F#16 = wordXYN (fieldOp u) 0 0 (fieldN u) := by
    rw [word_eq_XYN u, mask_wordXYN, fieldOp_wordXYN, fieldN_wordXYN]
  refine accepts_eq_decide hv ?_
  rw [hmask, hmask]
  exact ⟨fun h => ⟨by simpa using congrArg fieldOp h, by simpa using congrArg fieldN h⟩,
    fun ⟨hop, hn⟩ => by rw [hop, hn]⟩

theorem accepts_maskKK (hv : v &&& 0xF0FF#16 = v) : OpRow.accepts ⟨0xF0FF#16, v, build⟩ w =
    decide (fieldOp w = fieldOp v ∧ fieldKK w = fieldKK v) := by
  have hmask (u : Opcode) : u &&& 0xF0FF#16 = wordXKK (fieldOp u) 0 (fieldKK u) := by
    rw [word_eq_XKK u, mask_wordXKK, fieldOp_wordXKK, fieldKK_wordXKK]
  refine accepts_eq_decide hv ?_
  rw [hmask, hmask]
  exact ⟨fun h => ⟨by simpa using congrArg fieldOp h, by simpa using congrArg fieldKK h⟩,
    fun ⟨hop, hkk⟩ => by rw [hop, hkk]⟩

/-- Rows 8 and 20, whose mask depends on `STRICT_SKIP_LOW_NIBBLE`. -/
theorem accepts_maskSkip {strict : Bool} (hv : v &&& 0xF000#16 = v) (hv' : v &&& 0xF00F#16 = v) :
    OpRow.accepts ⟨if strict then 0xF00F#16 else 0xF000#16, v, build⟩ w =
      decide (fieldOp w = fieldOp v ∧ (strict = true → fieldN w = fieldN v)) := by
  cases strict
  · simp [accepts_maskOp hv]
  · simp [accepts_maskN hv']

end Masks

/-! ### Unrecognized words (R66) -/

/-- The result of decoding w: unrecognized exactly under the condition. -/
def UnrecognizedWhen (p : Prop) (w : Opcode) (r : Except DecodeError Instr) : Prop :=
  (p → r = .error (.unrecognized w)) ∧ (¬ p → ∃ i : Instr, r = .ok i)

section Unrecognized

variable {p q : Prop} {w : Opcode}

theorem unrecognizedWhen_ok (hp : ¬ p) (i : Instr) : UnrecognizedWhen p w (.ok i) :=
  ⟨fun h => absurd h hp, fun _ => ⟨i, rfl⟩⟩

theorem unrecognizedWhen_error (hp : p) : UnrecognizedWhen p w (.error (.unrecognized w)) :=
  ⟨fun _ => rfl, fun h => absurd hp h⟩

theorem UnrecognizedWhen.congr {r : Except DecodeError Instr} (h : UnrecognizedWhen p w r)
    (hpq : p ↔ q) : UnrecognizedWhen q w r := by
  rwa [← propext hpq]

theorem unrecognizedWhen_decodeFamily0 (hp : ¬ p) : UnrecognizedWhen p w (decodeFamily0 w) := by
  unfold decodeFamily0
  split
  · exact unrecognizedWhen_ok hp _
  · split <;> exact unrecognizedWhen_ok hp _

theorem unrecognizedWhen_decodeSkipReg (strict : Bool) (w : Opcode) (i : Instr) :
    UnrecognizedWhen (strict = true ∧ (fieldN w).toNat ≠ 0) w (decodeSkipReg strict w i) := by
  unfold decodeSkipReg
  split
  · next h => exact unrecognizedWhen_error (by simpa [BitVec.toNat_eq] using h)
  · next h => exact unrecognizedWhen_ok (by simpa [BitVec.toNat_eq] using h) _

theorem unrecognizedWhen_decodeFamily8 (w : Opcode) :
    UnrecognizedWhen ((fieldN w).toNat ∈ [0x8, 0x9, 0xA, 0xB, 0xC, 0xD, 0xF]) w
      (decodeFamily8 w) := by
  unfold decodeFamily8
  split
  case h_10 => -- the arm without a pattern
    refine unrecognizedWhen_error ?_
    generalize fieldN w = n at *
    decide +revert
  all_goals next hn => exact unrecognizedWhen_ok (by simp [hn]) _

theorem unrecognizedWhen_decodeFamilyE (w : Opcode) :
    UnrecognizedWhen ((fieldKK w).toNat ∉ [0x9E, 0xA1]) w (decodeFamilyE w) := by
  unfold decodeFamilyE
  split
  case h_3 => exact unrecognizedWhen_error (by simp_all [BitVec.toNat_eq])
  all_goals next hkk => exact unrecognizedWhen_ok (by simp [hkk]) _

theorem unrecognizedWhen_decodeFamilyF (w : Opcode) :
    UnrecognizedWhen
      ((fieldKK w).toNat ∉ [0x07, 0x0A, 0x15, 0x18, 0x1E, 0x29, 0x33, 0x55, 0x65]) w
      (decodeFamilyF w) := by
  unfold decodeFamilyF
  split
  case h_10 => exact unrecognizedWhen_error (by simp_all [BitVec.toNat_eq])
  all_goals next hkk => exact unrecognizedWhen_ok (by simp [hkk]) _

end Unrecognized

/-! ### The cycle (R69) -/

theorem fetch_of_readMem {s : State} {hi lo : Byte} (hhi : s.readMem s.pc.toNat = .ok hi)
    (hlo : s.readMem (s.pc.toNat + 1) = .ok lo) : s.startCycle.fetch = .ok (hi ++ lo) := by
  rw [startCycle_fetch]
  simp [State.fetch, State.loadBytes, hhi, hlo, wordOfBytes]

/-- The state the instruction of a cycle gets. -/
theorem startCycle_advancePc (s : State) :
    s.startCycle.advancePc =
      { s with
        changed := if s.params.changedPolicy = .perCycle then false else s.changed
        pc := s.pc + 2 } := by
  unfold State.advancePc State.startCycle
  cases h : s.params.changedPolicy <;> simp

theorem endCycle_eq (s : State) :
    s.endCycle =
      { s with
        dt := if s.fault = none then tickDown s.dt else s.dt
        st := if s.fault = none then tickDown s.st else s.st
        inputs := s.inputs.tail
        cycle := s.cycle + 1 } := by
  unfold State.endCycle
  split <;> rfl

/-- `exec` is total: no instruction stops the machine and none is refused. -/
theorem exec_next (i : Instr) (s : State) : ∃ t, exec i s = .next t := by
  obtain ⟨t, ht⟩ | ⟨c, hc⟩ := exec_completes_or_raises i s
  · exact ⟨t, ht.exec_eq⟩
  · exact ⟨_, hc⟩

/-- No instruction writes the model's own fields, completed or faulted. -/
theorem exec_keeps_model_fields {i : Instr} {s t : State} (h : exec i s = .next t) :
    t.params = s.params ∧ t.inputs = s.inputs ∧ t.cycle = s.cycle := by
  obtain hc | ⟨c, rfl⟩ := exec_next_cases h
  · obtain ⟨-, -, -, -, -, -, -, -, -, hparams, hinputs, hcycle, -⟩ := hc.sameBut
    exact ⟨hparams, hinputs, hcycle⟩
  · simp

/-- A running core has a next state. -/
theorem step_next_of_running {s : State} (hs : s.running) : ∃ t, step s = .next t := by
  cases hf : s.startCycle.fetch with
  | error c => exact ⟨_, step_fetchFault hs hf⟩
  | ok w =>
    cases hd : decodeWord s.params.strictSkip w with
    | error e => exact ⟨_, step_unrecognized hs hf hd⟩
    | ok i =>
      obtain ⟨u, hu⟩ := exec_next i s.startCycle.advancePc
      exact ⟨_, step_ran hs hf hd hu⟩

/-- A step spends one cycle's arguments and leaves the parameters. -/
theorem step_model_fields {s t : State} (h : step s = .next t) :
    t.params = s.params ∧ t.inputs = s.inputs.tail ∧ t.cycle = s.cycle + 1 := by
  obtain ⟨-, hcase⟩ := step_next h
  cases hcase with
  | fetchFault c hf ht => simp [ht]
  | unrecognized w e hf hd ht => simp [ht]
  | ran w i u hf hd hx ht =>
    obtain ⟨hparams, hinputs, hcycle⟩ := exec_keeps_model_fields hx
    simp [ht, hparams, hinputs, hcycle]

/-! ### The statements -/

/-- Settles O8, by cases on the instruction: the fields of an encoded word are its operands. -/
theorem decodeOfEncodeIsTheInstruction : Obligations.DecodeOfEncodeIsTheInstruction := by
  unfold Obligations.DecodeOfEncodeIsTheInstruction
  exact fun strict i h => ⟨decodeWord_encode strict h, decodeBytes_encodeBytes strict h⟩

/-- Settles O9, by cases on the family: the fields that select the instruction and those it keeps make
up the word. -/
theorem encodeOfDecodeIsTheWord : Obligations.EncodeOfDecodeIsTheWord := by
  unfold Obligations.EncodeOfDecodeIsTheWord
  exact fun w i => encode_of_decodeWord

/-- Settles O10: each row tests the fields its mask keeps, and the search of the rows is compared with
the dispatch family by family. -/
theorem dispatchAgreesWithTheOpcodeMap : Obligations.DispatchAgreesWithTheOpcodeMap := by
  unfold Obligations.DispatchAgreesWithTheOpcodeMap
  intro strict w
  have hdispatch := decodeWord_dispatch strict w
  generalize decodeWord strict w = r at hdispatch ⊢
  simp only [decodeByRows, opcodeRows, opcodeRowsA, opcodeRowsB, opcodeRowsC, List.cons_append,
    List.nil_append, List.find?_cons, List.find?_nil, BitVec.ofNat_eq_ofNat, BitVec.reduceAnd,
    accepts_maskAll, accepts_maskOp, accepts_maskN, accepts_maskKK, accepts_maskSkip,
    fieldOp_ofNat, fieldN_ofNat, fieldKK_ofNat, fieldNNN_ofNat]
  cases hdispatch with
  | family0 hop =>
    unfold decodeFamily0
    split
    · next hcls => simp [hop, hcls]
    · next hcls => split <;> simp [*]
  | seReg hop | sneReg hop =>
    unfold decodeSkipReg
    cases strict
    · simp [hop]
    · by_cases hn : fieldN w = 0#4 <;> simp [hop, hn]
  | family8 hop => unfold decodeFamily8; split <;> simp_all
  | familyE hop => unfold decodeFamilyE; split <;> simp_all
  | familyF hop => unfold decodeFamilyF; split <;> simp_all
  | _ hop => simp [hop]

/-- Settles O11, family by family: only 5, 8, 9, E and F have unrecognized words. -/
theorem unrecognizedWordsAreThoseListed : Obligations.UnrecognizedWordsAreThoseListed := by
  unfold Obligations.UnrecognizedWordsAreThoseListed
  intro strict w
  simp only [← fieldOp_toNat, ← fieldN_toNat, ← fieldKK_toNat]
  change UnrecognizedWhen _ w _
  have hdispatch := decodeWord_dispatch strict w
  generalize decodeWord strict w = r at hdispatch ⊢
  cases hdispatch with
  | family0 hop => exact unrecognizedWhen_decodeFamily0 (by simp [hop])
  | seReg hop | sneReg hop =>
    exact (unrecognizedWhen_decodeSkipReg strict w _).congr (by simp [hop])
  | family8 hop => exact (unrecognizedWhen_decodeFamily8 w).congr (by simp [hop])
  | familyE hop => exact (unrecognizedWhen_decodeFamilyE w).congr (by simp [hop])
  | familyF hop => exact (unrecognizedWhen_decodeFamilyF w).congr (by simp [hop])
  | _ hop => exact unrecognizedWhen_ok (by simp [hop]) _

/-- Settles O12, field by field: each field is an extracted range of bits, read as a number. -/
theorem decodedFieldsAreTheBitsOfTheWord : Obligations.DecodedFieldsAreTheBitsOfTheWord := by
  unfold Obligations.DecodedFieldsAreTheBitsOfTheWord
  exact fun w => ⟨fieldOp_toNat w, fieldX_val w, fieldY_val w, fieldN_toNat w, fieldKK_toNat w,
    fieldNNN_toNat w⟩

/-- Settles O13: every word but the last is the encoding of its instruction. -/
theorem sampleWordsDecodeAsTheSpecReadsThem : Obligations.SampleWordsDecodeAsTheSpecReadsThem := by
  unfold Obligations.SampleWordsDecodeAsTheSpecReadsThem
  have hround (i : Instr) (h : i.wellFormed = true) := decodeWord_encode true h
  exact ⟨hround .cls rfl, hround (.sys 0x0E1) rfl, hround (.call 0x300) rfl,
    hround (.seImm 3 0x42) rfl, hround (.sub 1 2) rfl, hround (.shl 1 2) rfl,
    hround (.drw 1 2 5) rfl, hround (.skp 5) rfl, hround (.ldVxK 3) rfl, hround (.ldB 5) rfl, rfl⟩

/-- Settles O14: the fetch gives the word of i, and `exec` of i answers a next state. -/
theorem stepRunsTheDecodedInstruction : Obligations.StepRunsTheDecodedInstruction := by
  unfold Obligations.StepRunsTheDecodedInstruction
  intro s hi lo i hs hhi hlo hd
  obtain ⟨u, hu⟩ := exec_next i s.startCycle.advancePc
  rw [step_ran hs (fetch_of_readMem hhi hlo) hd hu, ← startCycle_advancePc, hu, endCycle_eq]

/-- Settles O17: the fetch faults at the first address above 0xFFF (`fetch_error`). -/
theorem fetchOutsideMemoryFaults : Obligations.FetchOutsideMemoryFaults := by
  unfold Obligations.FetchOutsideMemoryFaults
  intro s hs hpc
  have haddr : max s.pc.toNat 0x1000 = if s.pc.toNat = 0xFFF then 0x1000 else s.pc.toNat := by
    split <;> omega
  have hfetch := (startCycle_fetch s).trans (fetch_error s hpc)
  exact ⟨_, step_fetchFault hs hfetch, by simp [haddr]⟩

/-- Settles O18: the fault is raised with pc already advanced, and the record takes the 2 back. -/
theorem unrecognizedWordFaults : Obligations.UnrecognizedWordFaults := by
  unfold Obligations.UnrecognizedWordFaults
  intro s hi lo e hs hhi hlo hd
  exact ⟨_, step_unrecognized hs (fetch_of_readMem hhi hlo) hd, by simp⟩

/-- Settles O20: the fetch, the decode and the instruction each answer a next state, and no instruction
writes the model's own fields. -/
theorem runningCoreAlwaysSteps : Obligations.RunningCoreAlwaysSteps := by
  unfold Obligations.RunningCoreAlwaysSteps
  intro s hs
  obtain ⟨t, ht⟩ := step_next_of_running hs
  exact ⟨t, ht, step_model_fields ht⟩

end Sys2Proof.Laws

/-! SUPPORT. Proofs of the statements on control flow (spec/40_control_flow.md): the pc a jump or a skip
leaves as a number (R102, R104..R108), CALL and RET at every depth (R101, R103), and the faults of SYS,
RET and CALL. -/

namespace Sys2Proof.Laws

open Sys2Proof.Machine

/-! ### Where a jump or a skip goes -/

theorem zextNNN_toNat (nnn : BitVec 12) : (zextNNN nnn).toNat = nnn.toNat :=
  BitVec.toNat_setWidth_of_le (by decide)

/-- The sum of R108 fits in pc, so nothing is lost (D31). -/
theorem jumpOffset_toNat (b : Byte) (nnn : BitVec 12) :
    (jumpOffset b nnn).toNat = b.toNat + nnn.toNat := by
  have hb := b.isLt
  have hn := nnn.isLt
  rw [jumpOffset, BitVec.toNat_ofNat]
  omega

theorem skipIf_beq_pc (s : State) (a b : Byte) :
    (s.skipIf (a == b)).pc = if a = b then s.pc + 2 else s.pc := by simp

theorem skipIf_bne_pc (s : State) (a b : Byte) :
    (s.skipIf (a != b)).pc = if a = b then s.pc else s.pc + 2 := by
  by_cases h : a = b <;> simp [h]

/-! ### CALL and RET (R101, R103) -/

section CallStack

variable {s : State} {k : Fin 16}

/-- CALL at depth k completes one deeper, with the advanced pc in entry k. -/
theorem call_pushes (hsp : s.sp = k.castSucc) (nnn : BitVec 12) :
    ∃ t, Completes s (.call nnn) t ∧ t.sp = k.succ ∧ t.pc = zextNNN nnn ∧
      t.stack.get k = s.pc ∧ ∀ j : Fin 16, j ≠ k → t.stack.get j = s.stack.get j := by
  refine ⟨_, .call nnn k hsp, rfl, rfl, ?_, fun j hj => ?_⟩
  · rw [jumpTo_stack, Vector.get_eq_getElem, Vector.getElem_set_self]
  · rw [jumpTo_stack, Vector.get_eq_getElem,
      Vector.getElem_set_ne _ _ (Fin.val_ne_of_ne hj.symm), Vector.get_eq_getElem]

/-- RET at depth k + 1 completes one less deep, at the address in entry k. -/
theorem ret_pops (hsp : s.sp = k.succ) :
    ∃ t, Completes s .ret t ∧ t.sp = k.castSucc ∧ t.pc = s.stack.get k ∧ t.stack = s.stack :=
  ⟨_, .ret k hsp, rfl, rfl, rfl⟩

end CallStack

/-! ### The fault record an instruction leaves -/

section Faults

variable {s t : State}

theorem Completes.fault_eq {i : Instr} (h : Completes s i t) : t.fault = s.fault := by
  obtain ⟨-, -, -, -, -, -, -, -, hfault, -⟩ := h.sameBut
  exact hfault

theorem faultsWith_of_exec_raise {i : Instr} {c : FaultCause} (h : exec i s = .next (s.raise c)) :
    faultsWith (exec i s) c (s.pc - 2) := ⟨_, h, raise_fault s c⟩

theorem exec_sys_fault (hp : s.params.sysPolicy = .fault) (nnn : BitVec 12) :
    exec (.sys nnn) s = .next (s.raise (.unrecognizedInstruction (0x0#4 ++ nnn))) := by
  simp [exec, execSys, hp, encode, wordNNN]

theorem exec_ret_underflow (hsp : s.sp.val = 0) : exec .ret s = .next (s.raise .stackUnderflow) := by
  simp [exec, execRet, popPc_error s hsp]

theorem exec_call_overflow (hsp : s.sp.val = 16) (nnn : BitVec 12) :
    exec (.call nnn) s = .next (s.raise .stackOverflow) := by
  simp [exec, execCall, push_error s _ hsp]

end Faults

/-! ### The statements -/

/-- Settles O56: CALL fills entry SP (`call_pushes`), and RET reads that entry back (`ret_pops`), since
the routine keeps the entries below its own SP. -/
theorem retReturnsBehindTheCall : Obligations.RetReturnsBehindTheCall := by
  unfold Obligations.RetReturnsBehindTheCall
  intro s nnn hdepth
  obtain ⟨k, hk⟩ : ∃ k : Fin 16, s.sp = k.castSucc := ⟨⟨s.sp.val, hdepth⟩, rfl⟩
  obtain ⟨t, hcall, hsp, -, htop, hbelow⟩ := call_pushes hk nnn
  have hdeeper : t.sp.val = s.sp.val + 1 := by simp [hsp, hk]
  have hkeeps : ∀ j : Fin 16, j.val < s.sp.val → t.stack.get j = s.stack.get j := fun j hj =>
    hbelow j (Fin.ne_of_lt (by simpa [hk] using hj))
  refine ⟨t, hcall.exec_eq, hcall.fault_eq, hdeeper, hkeeps, fun u husp hu => ?_⟩
  obtain ⟨w, hret, hwsp, hwpc, hwstack⟩ := ret_pops (husp.trans hsp)
  have hentry : u.stack.get k = s.pc := (hu k (by simp [hsp])).trans htop
  exact ⟨w, hret.exec_eq, hwpc.trans hentry, hwsp.trans hk.symm, hwstack, hret.fault_eq⟩

/-- Settles O30, policy by policy. -/
theorem sysFollowsItsPolicy : Obligations.SysFollowsItsPolicy := by
  unfold Obligations.SysFollowsItsPolicy
  exact fun s nnn => ⟨fun hnop => (Completes.sys nnn hnop).exec_eq,
    fun hfault => faultsWith_of_exec_raise (exec_sys_fault hfault nnn)⟩

/-- Settles O31: RET pops at a depth above 0 (`ret_pops`) and raises StackUnderflow at 0. -/
theorem retPopsTheReturnAddress : Obligations.RetPopsTheReturnAddress := by
  unfold Obligations.RetPopsTheReturnAddress
  refine fun s => ⟨fun k hk => ?_, fun h => faultsWith_of_exec_raise (exec_ret_underflow h)⟩
  obtain ⟨t, hret, hsp, hpc, hstack⟩ := ret_pops (k := k) (Fin.ext hk)
  exact ⟨t, hret.exec_eq, congrArg Fin.val hsp, hpc, hstack, hret.sameBut⟩

/-- Settles O32: zero extension keeps the number (`zextNNN_toNat`). -/
theorem jpSetsPcToItsAddress : Obligations.JpSetsPcToItsAddress := by
  unfold Obligations.JpSetsPcToItsAddress
  intro s nnn
  have hjp := Completes.jp (s := s) nnn
  exact ⟨_, hjp.exec_eq, zextNNN_toNat nnn, hjp.sameBut⟩

/-- Settles O33: CALL pushes at a depth below 16 (`call_pushes`) and raises StackOverflow at 16. -/
theorem callPushesTheAdvancedPc : Obligations.CallPushesTheAdvancedPc := by
  unfold Obligations.CallPushesTheAdvancedPc
  refine fun s nnn =>
    ⟨fun k hk => ?_, fun h => faultsWith_of_exec_raise (exec_call_overflow h nnn)⟩
  obtain ⟨t, hcall, hsp, hpc, htop, hother⟩ := call_pushes (k := k) (Fin.ext hk) nnn
  exact ⟨t, hcall.exec_eq, htop, hother, congrArg Fin.val hsp,
    (congrArg BitVec.toNat hpc).trans (zextNNN_toNat nnn), hcall.sameBut⟩

/-- Settles O34: each skip is `State.skipIf` on its comparison. -/
theorem skipsCompareRegisterWithImmediate : Obligations.SkipsCompareRegisterWithImmediate := by
  unfold Obligations.SkipsCompareRegisterWithImmediate
  intro s x kk
  have hse := Completes.seImm (s := s) x kk
  have hsne := Completes.sneImm (s := s) x kk
  exact ⟨⟨_, hse.exec_eq, skipIf_beq_pc s _ _, hse.sameBut⟩,
    ⟨_, hsne.exec_eq, skipIf_bne_pc s _ _, hsne.sameBut⟩⟩

/-- Settles O35: as for an immediate, with V[Y] in its place. -/
theorem skipsCompareTwoRegisters : Obligations.SkipsCompareTwoRegisters := by
  unfold Obligations.SkipsCompareTwoRegisters
  intro s x y
  have hse := Completes.seReg (s := s) x y
  have hsne := Completes.sneReg (s := s) x y
  exact ⟨⟨_, hse.exec_eq, skipIf_beq_pc s _ _, hse.sameBut⟩,
    ⟨_, hsne.exec_eq, skipIf_bne_pc s _ _, hsne.sameBut⟩⟩

/-- Settles O36: the sum of V0 and nnn fits in pc (`jumpOffset_toNat`). -/
theorem jpV0AddsV0WithoutReduction : Obligations.JpV0AddsV0WithoutReduction := by
  unfold Obligations.JpV0AddsV0WithoutReduction
  intro s nnn
  have hjp := Completes.jpV0 (s := s) nnn
  exact ⟨_, hjp.exec_eq, jumpOffset_toNat _ nnn, hjp.sameBut⟩

end Sys2Proof.Laws

/-! SUPPORT. Proofs of the statements on the registers and their arithmetic
(spec/41_register_alu.md): the flags and the results as numbers (R120, R128..R132), and where
`writeResultAndFlag` leaves the two (R121). -/

namespace Sys2Proof.Laws

open Sys2Proof.Machine

/-! ### Flags as numbers (R120) -/

theorem flagByte_toNat (c : Bool) : (flagByte c).toNat = c.toNat := by cases c <;> rfl

theorem flagByte_decide_toNat (p : Prop) [Decidable p] :
    (flagByte (decide p)).toNat = if p then 1 else 0 := by
  rw [flagByte_toNat, Bool.toNat, Bool.cond_decide]

theorem carryFlag_toNat (a b : Byte) :
    (carryFlag a b).toNat = if a.toNat + b.toNat > 255 then 1 else 0 := flagByte_decide_toNat _

theorem noBorrowFlag_toNat (a b : Byte) :
    (noBorrowFlag a b).toNat = if a.toNat ≥ b.toNat then 1 else 0 := flagByte_decide_toNat _

/-- The flag that tells one bit of a byte. -/
theorem flagByte_getLsbD_toNat (a : Byte) (k : Nat) :
    (flagByte (a.getLsbD k)).toNat = a.toNat / 2 ^ k % 2 := by
  rw [flagByte_toNat, ← BitVec.testBit_toNat, Nat.toNat_testBit]

theorem shiftRightFlag_toNat (a : Byte) : (shiftRightFlag a).toNat = a.toNat % 2 := by
  rw [shiftRightFlag, flagByte_getLsbD_toNat, pow_zero, Nat.div_one]

/-- Bit 7 is the highest of a byte, so nothing is left above it. -/
theorem shiftLeftFlag_toNat (a : Byte) : (shiftLeftFlag a).toNat = a.toNat / 128 := by
  have ha := a.isLt
  rw [shiftLeftFlag, flagByte_getLsbD_toNat]
  omega

/-! ### Results as numbers (R129..R132) -/

theorem byte_sub_toNat (a b : Byte) : (a - b).toNat = (256 + a.toNat - b.toNat) % 256 := by
  have hb := b.isLt
  rw [BitVec.toNat_sub]
  omega

theorem byte_shiftRight_one_toNat (a : Byte) : (a >>> 1).toNat = a.toNat / 2 := by
  rw [BitVec.toNat_ushiftRight, Nat.shiftRight_one]

theorem byte_shiftLeft_one_toNat (a : Byte) : (a <<< 1).toNat = 2 * a.toNat % 256 := by
  rw [BitVec.toNat_shiftLeft, Nat.shiftLeft_eq, pow_one, Nat.mul_comm]

/-! ### The destination after the instruction (R121) -/

theorem writeV_readV_same (s : State) (x : Reg) (b : Byte) : (s.writeV x b).readV x = b := by
  rw [writeV_readV, if_pos rfl]

/-- RESULT AND FLAG (R121): `writeResultAndFlag` leaves both, in the order of `VF_ALIAS_ORDER` when
the destination is VF. -/
theorem resultAndFlag_writeResultAndFlag {result flag : Byte} {m n : Nat} (s : State) (x : Reg)
    (hm : result.toNat = m) (hn : flag.toNat = n) :
    s.resultAndFlag (s.writeResultAndFlag x result flag) x m n := by
  subst hm hn
  refine ⟨fun hx => ?_, fun hx => ?_⟩
  · simp [writeResultAndFlag_readV, hx]
  · rw [writeResultAndFlag_readV]
    cases ho : s.params.vfAliasOrder <;> simp [hx]

/-! ### The statements -/

/-- Settles O37. -/
theorem ldImmWritesTheImmediate : Obligations.LdImmWritesTheImmediate := by
  unfold Obligations.LdImmWritesTheImmediate
  intro s x kk
  have hld := Completes.ldImm (s := s) x kk
  exact ⟨_, hld.exec_eq, writeV_readV_same s x _, hld.sameBut⟩

/-- Settles O38: addition of bytes is addition modulo 256 (`BitVec.toNat_add`). -/
theorem addImmWrapsWithoutFlag : Obligations.AddImmWrapsWithoutFlag := by
  unfold Obligations.AddImmWrapsWithoutFlag
  intro s x kk
  have hadd := Completes.addImm (s := s) x kk
  refine ⟨_, hadd.exec_eq, ?_, hadd.sameBut⟩
  rw [writeV_readV_same, BitVec.toNat_add]

/-- Settles O39. -/
theorem ldRegCopiesTheRegister : Obligations.LdRegCopiesTheRegister := by
  unfold Obligations.LdRegCopiesTheRegister
  intro s x y
  have hld := Completes.ldReg (s := s) x y
  exact ⟨_, hld.exec_eq, writeV_readV_same s x _, hld.sameBut⟩

/-- Settles O40, bit by bit. -/
theorem logicalOperationsLeaveVfAlone : Obligations.LogicalOperationsLeaveVfAlone := by
  unfold Obligations.LogicalOperationsLeaveVfAlone
  intro s x y
  have hor := Completes.orReg (s := s) x y
  have hand := Completes.andReg (s := s) x y
  have hxor := Completes.xorReg (s := s) x y
  refine ⟨⟨_, hor.exec_eq, fun k => ?_, hor.sameBut⟩, ⟨_, hand.exec_eq, fun k => ?_, hand.sameBut⟩,
    ⟨_, hxor.exec_eq, fun k => ?_, hxor.sameBut⟩⟩
  · rw [writeV_readV_same, BitVec.getLsbD_or]
  · rw [writeV_readV_same, BitVec.getLsbD_and]
  · rw [writeV_readV_same, BitVec.getLsbD_xor]

/-- Settles O41: the sum and its carry as numbers, both of the old values. -/
theorem addRegSetsCarry : Obligations.AddRegSetsCarry := by
  unfold Obligations.AddRegSetsCarry
  intro s x y
  have hadd := Completes.addReg (s := s) x y
  exact ⟨_, hadd.exec_eq,
    resultAndFlag_writeResultAndFlag s x (BitVec.toNat_add _ _) (carryFlag_toNat _ _), hadd.sameBut⟩

/-- Settles O42: SUBN is SUB with the operands exchanged. -/
theorem subtractsSetNoBorrow : Obligations.SubtractsSetNoBorrow := by
  unfold Obligations.SubtractsSetNoBorrow
  intro s x y
  have hsub := Completes.sub (s := s) x y
  have hsubn := Completes.subn (s := s) x y
  have hresult : ∀ a b : Byte, s.resultAndFlag (s.writeResultAndFlag x (a - b) (noBorrowFlag a b)) x
      ((256 + a.toNat - b.toNat) % 256) (if a.toNat ≥ b.toNat then 1 else 0) := fun a b =>
    resultAndFlag_writeResultAndFlag s x (byte_sub_toNat a b) (noBorrowFlag_toNat a b)
  exact ⟨⟨_, hsub.exec_eq, hresult _ _, hsub.sameBut⟩,
    ⟨_, hsubn.exec_eq, hresult _ _, hsubn.sameBut⟩⟩

/-- Settles O43: both shift `State.shiftOperand`, which holds the number src. -/
theorem shiftsSetTheBitShiftedOut : Obligations.ShiftsSetTheBitShiftedOut := by
  unfold Obligations.ShiftsSetTheBitShiftedOut
  intro s x y src hsrc
  obtain rfl : src = (s.shiftOperand x y).toNat := by
    rw [hsrc, State.shiftOperand]
    cases s.params.shiftSource <;> rfl
  have hshr := Completes.shr (s := s) x y
  have hshl := Completes.shl (s := s) x y
  exact ⟨⟨_, hshr.exec_eq, resultAndFlag_writeResultAndFlag s x (byte_shiftRight_one_toNat _)
      (shiftRightFlag_toNat _), hshr.sameBut⟩,
    ⟨_, hshl.exec_eq, resultAndFlag_writeResultAndFlag s x (byte_shiftLeft_one_toNat _)
      (shiftLeftFlag_toNat _), hshl.sameBut⟩⟩

/-- Settles O44: `State.rand8` is the draw of `State.cycleInput`, which takes the first fixed
argument where there is one. -/
theorem rndMasksTheDrawOfTheCycle : Obligations.RndMasksTheDrawOfTheCycle := by
  unfold Obligations.RndMasksTheDrawOfTheCycle
  intro s x kk
  have hrnd := Completes.rnd (s := s) x kk
  refine ⟨⟨_, hrnd.exec_eq, writeV_readV_same s x _, hrnd.sameBut⟩, fun a rest hin => ?_⟩
  simp only [State.cycleInput, hin]

end Sys2Proof.Laws

/-! SUPPORT. Proofs of the statements on the display (spec/42_display.md): the pixels DRW covers,
the pixels and the VF it leaves (R142), what a second DRW finds (S6), and the fault of a sprite that
leaves memory. -/

namespace Sys2Proof.Laws

open Sys2Proof.Machine

/-! ### What DRW leaves (R142) -/

/-- DRW Vx, Vy, n, executed in this state, has a set bit on the pixel in row py, column px. -/
def drwCovers (s : State) (x y : Reg) (n : BitVec 4) : Fin 32 → Fin 64 → Bool :=
  spriteCovers (fun r => s.peek (s.base + r)) n.toNat (s.drwCoordinate x) (s.drwCoordinate y)

/-- DRW clears VF before it takes a coordinate under `after_clear` alone. -/
theorem drwCoordinate_eq (s : State) (r : Reg) : s.drwCoordinate r =
    if s.params.drwVfSample = .afterClear ∧ r = regVF then 0 else (s.readV r).toNat := by
  unfold State.drwCoordinate
  cases s.params.drwVfSample with
  | beforeClear => simp
  | afterClear => by_cases hr : r = regVF <;> simp [hr]

theorem drwCoordinate_of_ne {r : Reg} (hr : r ≠ regVF) (s : State) :
    s.drwCoordinate r = (s.readV r).toNat := by
  rw [drwCoordinate_eq, if_neg fun h => hr h.2]

theorem drawn_readV_regVF (s : State) (x y : Reg) (bytes : List Byte) :
    (s.drawn x y bytes).readV regVF =
      flagByte (s.grid.drawSprite (s.drwCoordinate x) (s.drwCoordinate y) bytes).hit :=
  writeV_readV_same s regVF _

section Drw

variable {s t : State} {x y : Reg} {n : BitVec 4}

theorem Completes.drw_pixel (h : Completes s (.drw x y n) t) (py : Fin 32) (px : Fin 64) :
    t.grid.pixel py px = (s.grid.pixel py px ^^ drwCovers s x y n py px) := by
  cases h with
  | drw =>
    obtain ⟨hpixel, -⟩ := drawSprite s.grid (s.drwCoordinate x) (s.drwCoordinate y)
      (fun k => s.peek (s.base + k)) n.toNat (by omega)
    exact hpixel py px

/-- VF is the collision flag (R142): 1 when a covered pixel was set, and else 0. -/
theorem Completes.drw_collision (h : Completes s (.drw x y n) t) :
    (t.readV regVF = 1 ∨ t.readV regVF = 0) ∧
      (t.readV regVF = 1 ↔ ∃ (py : Fin 32) (px : Fin 64),
        s.grid.pixel py px = true ∧ drwCovers s x y n py px = true) := by
  cases h with
  | drw =>
    obtain ⟨-, hhit⟩ := drawSprite s.grid (s.drwCoordinate x) (s.drwCoordinate y)
      (fun k => s.peek (s.base + k)) n.toNat (by omega)
    rw [drawn_readV_regVF, flagByte_eq_one, flagByte_eq_zero]
    simp only [and_comm] at hhit
    exact ⟨Bool.eq_false_or_eq_true _, hhit⟩

/-- DRW moves nothing its own sprite depends on, unless it takes a coordinate from VF. -/
theorem Completes.drw_keeps_drwCovers (h : Completes s (.drw x y n) t) (hx : x ≠ regVF)
    (hy : y ≠ regVF) : drwCovers t x y n = drwCovers s x y n := by
  have hreg : ∀ r, r ≠ regVF → t.readV r = s.readV r := fun r hr =>
    h.readV_eq (by simpa [Instr.mayWrite] using hr)
  have hcoord : ∀ r, r ≠ regVF → t.drwCoordinate r = s.drwCoordinate r := fun r hr => by
    rw [drwCoordinate_of_ne hr, drwCoordinate_of_ne hr, hreg r hr]
  have hpeek : ∀ a, t.peek a = s.peek a := by
    cases h with | drw => exact peek_congr (drawn_mem ..) (drawn_params ..)
  simp only [drwCovers, State.base, h.i_eq rfl, hpeek, hcoord x hx, hcoord y hy]

theorem exec_drw_fault (hn : 0 < n.toNat) (h : 0x1000 < s.base + n.toNat) (x y : Reg) :
    exec (.drw x y n) s = .next (s.raise (.memoryOutOfRange (max s.base 0x1000))) := by
  simp [exec, execDrw, loadBytes_error s hn h]

end Drw

/-- DRW completes when its sprite lies inside memory, or has no rows. -/
theorem Completes.drw_of_fits {s : State} {n : BitVec 4}
    (h : n = 0 ∨ s.i.toNat + n.toNat ≤ 0x1000) (x y : Reg) : ∃ t, Completes s (.drw x y n) t :=
  ⟨_, .drw x y n (h.imp_left (congrArg BitVec.toNat))⟩

/-! ### The statements -/

/-- Settles O46: the coordinate function is `State.drwCoordinate`, so `drwCovers` says what is
covered. -/
theorem drwFlipsThePixelsOfTheSprite : Obligations.DrwFlipsThePixelsOfTheSprite := by
  unfold Obligations.DrwFlipsThePixelsOfTheSprite
  intro s x y n coord hcoord hfit
  obtain rfl : coord = s.drwCoordinate :=
    funext fun r => (hcoord r).trans (drwCoordinate_eq s r).symm
  obtain ⟨t, ht⟩ := Completes.drw_of_fits hfit x y
  obtain ⟨hflag, hcollision⟩ := ht.drw_collision
  exact ⟨t, ht.exec_eq, ht.drw_pixel, hflag, hcollision,
    ht.changed_iff.2 (.inr (.inr ⟨x, y, n, rfl⟩)), ht.sameBut⟩

/-- Settles O48: both draws cover the same pixels (`Completes.drw_keeps_drwCovers`). The second
flips each of them back, and one that is set then was clear before the first. -/
theorem drawingTwiceRestoresTheGrid : Obligations.DrawingTwiceRestoresTheGrid := by
  unfold Obligations.DrawingTwiceRestoresTheGrid
  intro s t x y n hx hy hfit hexec
  obtain ⟨t', ht⟩ := Completes.drw_of_fits hfit x y
  obtain rfl : t' = t := Host.Outcome.next.inj (ht.exec_eq.symm.trans hexec)
  obtain ⟨u, hu⟩ := Completes.drw_of_fits (s := t') (by rwa [ht.i_eq rfl]) x y
  have hcovers := ht.drw_keeps_drwCovers hx hy
  have hback : ∀ py px, u.grid.pixel py px = s.grid.pixel py px := fun py px => by
    rw [hu.drw_pixel, ht.drw_pixel, hcovers, Bool.xor_assoc, Bool.xor_self, Bool.xor_false]
  have hturnedOn : ∀ py px, t'.grid.pixel py px = true →
      (drwCovers t' x y n py px = true ↔ s.grid.pixel py px = false) := fun py px hset => by
    rw [ht.drw_pixel] at hset
    rw [hcovers]
    cases hs : s.grid.pixel py px <;> simpa [hs] using hset
  obtain ⟨hflag, hcollision⟩ := hu.drw_collision
  refine ⟨u, hu.exec_eq, grid_ext hback, hflag, hcollision.trans ?_⟩
  exact exists_congr fun py => exists_congr fun px => and_congr_right (hturnedOn py px)

/-- Settles O45. -/
theorem clsClearsEveryPixel : Obligations.ClsClearsEveryPixel := by
  unfold Obligations.ClsClearsEveryPixel
  intro s
  have hcls := Completes.cls (s := s)
  exact ⟨_, hcls.exec_eq, clear_pixel, rfl, hcls.sameBut⟩

/-- Settles O47: the load of the sprite bytes faults at the first address above 0xFFF
(`exec_drw_fault`). -/
theorem drwFaultsWhenItsSpriteLeavesMemory : Obligations.DrwFaultsWhenItsSpriteLeavesMemory := by
  unfold Obligations.DrwFaultsWhenItsSpriteLeavesMemory
  intro s x y n hn hout
  have hpos : 0 < n.toNat := Nat.pos_of_ne_zero fun h => hn (BitVec.eq_of_toNat_eq h)
  have haddr : (if 0xFFF < s.i.toNat then s.i.toNat else 0x1000) = max s.i.toNat 0x1000 := by
    split <;> omega
  rw [haddr]
  exact faultsWith_of_exec_raise (exec_drw_fault hpos hout x y)

end Sys2Proof.Laws

/-! SUPPORT. Proofs of the statements on the index register and memory (spec/43_index_memory.md):
the values of I as numbers (R160..R162, D7), the bytes LD B and LD [I] leave and the registers
LD Vx, [I] leaves (R163..R165), and the fault of a transfer that leaves memory. -/

namespace Sys2Proof.Laws

open Sys2Proof.Machine

/-! ### The index register as a number (R161, R162, D7) -/

/-- Five times a byte fits in I, so nothing is lost. -/
theorem glyphAddress_toNat (b : Byte) : (glyphAddress b).toNat = 5 * b.toNat := by
  have hb := b.isLt
  rw [glyphAddress, BitVec.toNat_ofNat]
  omega

theorem indexFlag_eq (i : Addr) (a : Byte) :
    indexFlag i a = if i.toNat + a.toNat > 0xFFF then 1 else 0 := by
  simp only [indexFlag, flagByte, decide_eq_true_eq]

/-- I after a block transfer whose own part left I and the parameters alone (D7). -/
theorem afterBlock_i_toNat {s t : State} (hp : t.params = s.params) (hi : t.i = s.i) (x : Reg) :
    (t.afterBlock x).i.toNat = match s.params.loadStoreInc with
      | .none => s.i.toNat
      | .xPlusOne => (s.i.toNat + x.val + 1) % 0x10000 := by
  rw [afterBlock_i, hp, hi]
  cases s.params.loadStoreInc with
  | none => rfl
  | xPlusOne => exact BitVec.toNat_ofNat _ _

/-- A frame stays one when it also allows I to change. -/
theorem sameBut_allowIndex {c : Changes} {s t : State} (h : s.sameBut c t) :
    s.sameBut { c with i := true } t := by
  obtain ⟨hv, -, hrest⟩ := h
  exact ⟨hv, nofun, hrest⟩

/-! ### What the transfers leave (R163..R165) -/

section Transfers

variable {s t : State} {x : Reg}

/-- Bytes placed inside memory are read back. -/
theorem placeBytes_readMem (hw : s.memWf) {a k : Nat} {bs : List Byte}
    (hfit : a + bs.length ≤ 0x1000) (hk : k < bs.length) :
    (s.placeBytes a bs).readMem (a + k) = .ok bs[k] := by
  have hplaced : a ≤ a + k ∧ a + k - a < bs.length ∧ a + k ≤ 0xFFF := by omega
  rw [readMem_ok _ (by omega), placeBytes_peek hw, dif_pos hplaced]
  simp only [Nat.add_sub_cancel_left]

theorem Completes.ldB_readMem (h : Completes s (.ldB x) t) (hw : s.memWf) {k : Nat}
    (hk : k < 3) : t.readMem (s.base + k) = .ok ((bcdDigits (s.readV x))[k]'hk) := by
  cases h with
  | ldB _ hfit => exact placeBytes_readMem hw hfit hk

theorem Completes.storeRegs_readMem (h : Completes s (.storeRegs x) t) (hw : s.memWf) {k : Reg}
    (hk : k ≤ x) : t.readMem (s.base + k.val) = .ok (s.readV k) := by
  cases h with
  | storeRegs _ hfit =>
    have hlen := regsUpTo_length s x
    have hkx : k.val < (s.regsUpTo x).length := hlen ▸ Nat.lt_succ_of_le hk
    rw [afterBlock_readMem, placeBytes_readMem hw (hlen ▸ hfit) hkx, regsUpTo_getElem]

theorem Completes.loadRegs_readMem (h : Completes s (.loadRegs x) t) {k : Reg} (hk : k ≤ x) :
    s.readMem (s.base + k.val) = .ok (t.readV k) := by
  cases h with
  | loadRegs _ hfit =>
    have hkx : k.val < x.val + 1 := Nat.lt_succ_of_le hk
    rw [readMem_ok s (by omega), afterBlock_readV, writeVsFrom_readV, dif_pos (by simpa using hkx)]
    simp

/-! ### Transfers that leave memory -/

theorem exec_ldB_fault (h : 0xFFF < s.i.toNat + 2) (x : Reg) :
    exec (.ldB x) s = .next (s.raise (.memoryOutOfRange (max s.base 0x1000))) := by
  have hstore := storeBytes_error s (a := s.base) (bs := bcdDigits (s.readV x)) nofun
    (Nat.succ_lt_succ h)
  simp only [exec, execLdB, hstore, finish_error]

theorem exec_storeRegs_fault (h : 0xFFF < s.i.toNat + x.val) :
    exec (.storeRegs x) s = .next (s.raise (.memoryOutOfRange (max s.base 0x1000))) := by
  have hlen := regsUpTo_length s x
  have hstore := storeBytes_error s (a := s.base) (bs := s.regsUpTo x)
    (List.ne_nil_of_length_eq_add_one hlen) (hlen ▸ Nat.succ_lt_succ h)
  simp only [exec, execStoreRegs, hstore, finish_error]

theorem exec_loadRegs_fault (h : 0xFFF < s.i.toNat + x.val) :
    exec (.loadRegs x) s = .next (s.raise (.memoryOutOfRange (max s.base 0x1000))) := by
  have hload := loadBytes_error s (a := s.base) (Nat.succ_pos x.val) (Nat.succ_lt_succ h)
  simp only [exec, execLoadRegs, hload, finish_error]

/-- Of the addresses from I on, the first above 0xFFF is I itself or 0x1000. -/
theorem faultsWith_firstAboveTop {i : Instr}
    (h : exec i s = .next (s.raise (.memoryOutOfRange (max s.base 0x1000)))) :
    faultsWith (exec i s)
      (.memoryOutOfRange (if 0xFFF < s.i.toNat then s.i.toNat else 0x1000)) (s.pc - 2) := by
  have haddr : (if 0xFFF < s.i.toNat then s.i.toNat else 0x1000) = max s.base 0x1000 := by
    unfold State.base
    split <;> omega
  rw [haddr]
  exact faultsWith_of_exec_raise h

end Transfers

/-! ### The statements -/

/-- Settles O52: the bytes placed are the digits (`Completes.ldB_readMem`), or the store faults
(`exec_ldB_fault`). -/
theorem ldBStoresTheDecimalDigits : Obligations.LdBStoresTheDecimalDigits := by
  unfold Obligations.LdBStoresTheDecimalDigits
  refine fun s x hw =>
    ⟨fun hfit => ?_, fun hout => faultsWith_firstAboveTop (exec_ldB_fault hout x)⟩
  have hldB := Completes.ldB (s := s) x (Nat.succ_le_succ hfit)
  have hdigit := fun k => hldB.ldB_readMem hw (k := k)
  exact ⟨_, hldB.exec_eq, hdigit 0 (by decide), hdigit 1 (by decide), hdigit 2 (by decide),
    hldB.sameBut⟩

/-- Settles O53: the bytes placed are the registers (`Completes.storeRegs_readMem`), or the store
faults (`exec_storeRegs_fault`). -/
theorem blockStoreCopiesV0ToVx : Obligations.BlockStoreCopiesV0ToVx := by
  unfold Obligations.BlockStoreCopiesV0ToVx
  refine fun s x hw =>
    ⟨fun hfit => ?_, fun hout => faultsWith_firstAboveTop (exec_storeRegs_fault hout)⟩
  have hstore := Completes.storeRegs (s := s) x (Nat.succ_le_succ hfit)
  exact ⟨_, hstore.exec_eq, fun k hk => hstore.storeRegs_readMem hw hk,
    afterBlock_i_toNat (placeBytes_params ..) (placeBytes_i ..) x,
    sameBut_allowIndex hstore.sameBut⟩

/-- Settles O54: the registers hold the bytes read (`Completes.loadRegs_readMem`), or the load
faults (`exec_loadRegs_fault`). -/
theorem blockLoadFillsV0ToVx : Obligations.BlockLoadFillsV0ToVx := by
  unfold Obligations.BlockLoadFillsV0ToVx
  refine fun s x =>
    ⟨fun hfit => ?_, fun hout => faultsWith_firstAboveTop (exec_loadRegs_fault hout)⟩
  have hload := Completes.loadRegs (s := s) x (Nat.succ_le_succ hfit)
  exact ⟨_, hload.exec_eq, fun k hk => hload.loadRegs_readMem hk,
    afterBlock_i_toNat (writeVsFrom_params ..) (writeVsFrom_i ..) x,
    sameBut_allowIndex hload.sameBut⟩

/-- Settles O55: the load finds at I + k the byte the store put there, since u has its memory and
the I of s. -/
theorem blockLoadRestoresWhatBlockStoreSaved :
    Obligations.BlockLoadRestoresWhatBlockStoreSaved := by
  unfold Obligations.BlockLoadRestoresWhatBlockStoreSaved
  intro s t u x hw hfit hexec hmem hparams hi
  have hstore := Completes.storeRegs (s := s) x (Nat.succ_le_succ hfit)
  obtain rfl := Host.Outcome.next.inj (hstore.exec_eq.symm.trans hexec)
  have hbase : u.base = s.base := congrArg BitVec.toNat hi
  have hload := Completes.loadRegs (s := u) x (hbase ▸ Nat.succ_le_succ hfit)
  refine ⟨_, hload.exec_eq, fun k hk => Except.ok.inj (ε := FaultCause) ?_⟩
  rw [← hload.loadRegs_readMem hk, ← hstore.storeRegs_readMem hw hk, hbase,
    readMem_congr hmem hparams]

/-- Settles O49: zero extension keeps the number (`zextNNN_toNat`). -/
theorem ldISetsIndex : Obligations.LdISetsIndex := by
  unfold Obligations.LdISetsIndex
  intro s nnn
  have hld := Completes.ldI (s := s) nnn
  exact ⟨_, hld.exec_eq, zextNNN_toNat nnn, hld.sameBut⟩

/-- Settles O50: I is the sum modulo 0x10000 (`BitVec.toNat_ofNat`) and VF the flag of the unreduced
sum (`indexFlag_eq`). -/
theorem addIFlagsSumAboveTop : Obligations.AddIFlagsSumAboveTop := by
  unfold Obligations.AddIFlagsSumAboveTop
  intro s x
  have hadd := Completes.addI (s := s) x
  exact ⟨_, hadd.exec_eq, BitVec.toNat_ofNat _ _,
    (writeV_readV_same _ regVF _).trans (indexFlag_eq s.i (s.readV x)), hadd.sameBut⟩

/-- Settles O51: five times a byte fits in I (`glyphAddress_toNat`). -/
theorem ldFPointsAtTheGlyph : Obligations.LdFPointsAtTheGlyph := by
  unfold Obligations.LdFPointsAtTheGlyph
  intro s x
  have hld := Completes.ldF (s := s) x
  exact ⟨_, hld.exec_eq, glyphAddress_toNat _, hld.sameBut⟩

end Sys2Proof.Laws

/-! SUPPORT. Proofs of the statements on keys and timers (spec/44_input_timers.md): where the skips on
a key go (R180, R181) and their fault (D13), the two states LD Vx, K can leave (R182, D10), and the
timer transfers (R183..R185). -/

namespace Sys2Proof.Laws

open Sys2Proof.Machine

/-! ### Keys (R180..R182) -/

section Keys

variable {s : State} {x : Reg}

theorem skipIf_not_pc (s : State) (b : Bool) :
    (s.skipIf (!b)).pc = if b = true then s.pc else s.pc + 2 := by
  cases b <;> rfl

theorem exec_skp_fault (h : 15 < (s.readV x).toNat) :
    exec (.skp x) s = .next (s.raise (.keyIndexOutOfRange (s.readV x))) := by
  simp only [exec, execSkp, keyOf_error s x h, finish_error]

theorem exec_sknp_fault (h : 15 < (s.readV x).toNat) :
    exec (.sknp x) s = .next (s.raise (.keyIndexOutOfRange (s.readV x))) := by
  simp only [exec, execSknp, keyOf_error s x h, finish_error]

theorem pollKey_of_lowestKey_some {k : Fin 16} (h : s.lowestKey = some k) :
    s.pollKey x = s.writeV x (BitVec.ofNat 8 k.val) := by
  rw [State.pollKey, h]

theorem pollKey_of_lowestKey_none (h : s.lowestKey = none) :
    s.pollKey x = s.jumpTo (s.pc - 2) := by
  rw [State.pollKey, h]

/-- The number of a key fits in a byte, so nothing is lost. -/
theorem keyByte_toNat (k : Fin 16) : (BitVec.ofNat 8 k.val).toNat = k.val :=
  (BitVec.toNat_ofNat _ _).trans (Nat.mod_eq_of_lt (k.isLt.trans (by decide)))

end Keys

/-! ### The statements -/

/-- Settles O58: `State.lowestKey` finds the key (`lowestKey_some`) or none (`lowestKey_none`), and
`State.pollKey` then writes one register or moves pc, not both. -/
theorem keyWaitStoresTheLowestKeyOrRewinds : Obligations.KeyWaitStoresTheLowestKeyOrRewinds := by
  unfold Obligations.KeyWaitStoresTheLowestKeyOrRewinds
  intro s x
  have hexec := (Completes.ldVxK (s := s) x).exec_eq
  refine ⟨fun k hk hlower => ?_, fun hnone => ?_⟩
  · have hlowest : s.lowestKey = some k := (lowestKey_some s k).2 ⟨hk, hlower⟩
    rw [pollKey_of_lowestKey_some hlowest] at hexec
    refine ⟨_, hexec, ?_, sameBut_writeV (List.mem_singleton_self x) _⟩
    rw [writeV_readV_same, keyByte_toNat]
  · have hlowest : s.lowestKey = none := (lowestKey_none s).2 hnone
    rw [pollKey_of_lowestKey_none hlowest] at hexec
    exact ⟨_, hexec, jumpTo_pc s _, sameBut_jumpTo rfl _⟩

/-- Settles O57: each skip is `State.skipIf` on the key V[X] names, or the fault of an index above
15. -/
theorem keySkipsTestTheSnapshot : Obligations.KeySkipsTestTheSnapshot := by
  unfold Obligations.KeySkipsTestTheSnapshot
  refine fun s x => ⟨fun k hk => ?_, fun h => ⟨faultsWith_of_exec_raise (exec_skp_fault h),
    faultsWith_of_exec_raise (exec_sknp_fault h)⟩⟩
  have hskp := Completes.skp x k hk
  have hsknp := Completes.sknp x k hk
  exact ⟨⟨_, hskp.exec_eq, skipIf_pc s _, hskp.sameBut⟩,
    ⟨_, hsknp.exec_eq, skipIf_not_pc s _, hsknp.sameBut⟩⟩

/-- Settles O59: DT is written as the instruction finds it. -/
theorem ldVxDtReadsTheDelayTimer : Obligations.LdVxDtReadsTheDelayTimer := by
  unfold Obligations.LdVxDtReadsTheDelayTimer
  intro s x
  have hld := Completes.ldVxDt (s := s) x
  exact ⟨_, hld.exec_eq, writeV_readV_same s x _, hld.sameBut⟩

/-- Settles O60: each load sets its one timer to V[X]. -/
theorem timerLoadsWriteTheTimers : Obligations.TimerLoadsWriteTheTimers := by
  unfold Obligations.TimerLoadsWriteTheTimers
  intro s x
  have hdelay := Completes.ldDtVx (s := s) x
  have hsound := Completes.ldStVx (s := s) x
  exact ⟨⟨_, hdelay.exec_eq, rfl, hdelay.sameBut⟩, ⟨_, hsound.exec_eq, rfl, hsound.sameBut⟩⟩

end Sys2Proof.Laws

/-! SUPPORT. Proofs of the statements on faults and the tick (spec/60_exceptions.md): the causes each
instruction can raise (R200, R201), a halted core (R203, and R248 for a run), and the timers over one
cycle (R207). -/

namespace Sys2Proof.Laws

open Sys2Proof.Machine

/-! ### What an instruction does when it raises a fault (R200, R201) -/

/-- THE INSTRUCTION RAISES A FAULT: the counterpart of `Completes`, with the condition under which each
instruction faults and the cause it gives. -/
inductive Raises (s : State) : Instr → FaultCause → Prop where
  | sys (nnn : BitVec 12) (hp : s.params.sysPolicy = .fault) :
      Raises s (.sys nnn) (.unrecognizedInstruction (0x0#4 ++ nnn))
  | ret (hsp : s.sp.val = 0) : Raises s .ret .stackUnderflow
  | call (nnn : BitVec 12) (hsp : s.sp.val = 16) : Raises s (.call nnn) .stackOverflow
  | drw (x y : Reg) (n : BitVec 4) (hn : 0 < n.toNat) (hout : 0x1000 < s.base + n.toNat) :
      Raises s (.drw x y n) (.memoryOutOfRange (max s.base 0x1000))
  | skp (x : Reg) (hk : 15 < (s.readV x).toNat) :
      Raises s (.skp x) (.keyIndexOutOfRange (s.readV x))
  | sknp (x : Reg) (hk : 15 < (s.readV x).toNat) :
      Raises s (.sknp x) (.keyIndexOutOfRange (s.readV x))
  | ldB (x : Reg) (hout : 0xFFF < s.base + 2) :
      Raises s (.ldB x) (.memoryOutOfRange (max s.base 0x1000))
  | storeRegs (x : Reg) (hout : 0xFFF < s.base + x.val) :
      Raises s (.storeRegs x) (.memoryOutOfRange (max s.base 0x1000))
  | loadRegs (x : Reg) (hout : 0xFFF < s.base + x.val) :
      Raises s (.loadRegs x) (.memoryOutOfRange (max s.base 0x1000))

/-- `exec` answers the fault entry of an instruction that raises a fault. -/
theorem Raises.exec_eq {s : State} {i : Instr} {c : FaultCause} (h : Raises s i c) :
    exec i s = .next (s.raise c) := by
  cases h with
  | sys nnn hp => exact exec_sys_fault hp nnn
  | ret hsp => exact exec_ret_underflow hsp
  | call nnn hsp => exact exec_call_overflow hsp nnn
  | drw x y n hn hout => exact exec_drw_fault hn hout x y
  | skp x hk => exact exec_skp_fault hk
  | sknp x hk => exact exec_sknp_fault hk
  | ldB x hout => exact exec_ldB_fault hout x
  | storeRegs x hout => exact exec_storeRegs_fault hout
  | loadRegs x hout => exact exec_loadRegs_fault hout

/-- The conditions of `Completes` and of `Raises` leave no case out. -/
theorem completes_or_raises (i : Instr) (s : State) :
    (∃ t, Completes s i t) ∨ ∃ c, Raises s i c := by
  cases i with
  | sys nnn =>
    cases hp : s.params.sysPolicy with
    | fault => exact .inr ⟨_, .sys nnn hp⟩
    | nop => exact .inl ⟨_, .sys nnn hp⟩
  | ret =>
    obtain hsp | ⟨k, hsp⟩ := Fin.eq_zero_or_eq_succ s.sp
    · exact .inr ⟨_, .ret (congrArg Fin.val hsp)⟩
    · exact .inl ⟨_, .ret k hsp⟩
  | call nnn =>
    obtain ⟨k, hsp⟩ | hsp := s.sp.eq_castSucc_or_eq_last
    · exact .inl ⟨_, .call nnn k hsp⟩
    · exact .inr ⟨_, .call nnn (congrArg Fin.val hsp)⟩
  | drw x y n =>
    by_cases hfit : n.toNat = 0 ∨ s.base + n.toNat ≤ 0x1000
    · exact .inl ⟨_, .drw x y n hfit⟩
    · exact .inr ⟨_, .drw x y n (by omega) (by omega)⟩
  | skp x =>
    by_cases hk : (s.readV x).toNat < 16
    · exact .inl ⟨_, .skp x ⟨_, hk⟩ rfl⟩
    · exact .inr ⟨_, .skp x (by omega)⟩
  | sknp x =>
    by_cases hk : (s.readV x).toNat < 16
    · exact .inl ⟨_, .sknp x ⟨_, hk⟩ rfl⟩
    · exact .inr ⟨_, .sknp x (by omega)⟩
  | ldB x =>
    by_cases hfit : s.base + 3 ≤ 0x1000
    · exact .inl ⟨_, .ldB x hfit⟩
    · exact .inr ⟨_, .ldB x (by omega)⟩
  | storeRegs x =>
    by_cases hfit : s.base + (x.val + 1) ≤ 0x1000
    · exact .inl ⟨_, .storeRegs x hfit⟩
    · exact .inr ⟨_, .storeRegs x (by omega)⟩
  | loadRegs x =>
    by_cases hfit : s.base + (x.val + 1) ≤ 0x1000
    · exact .inl ⟨_, .loadRegs x hfit⟩
    · exact .inr ⟨_, .loadRegs x (by omega)⟩
  | _ => exact .inl ⟨_, by constructor⟩

/-- A fault record in the answer of an instruction that began running is the one it raised. -/
theorem raises_of_fault {i : Instr} {s t : State} {r : FaultRecord} (hs : s.running)
    (h : exec i s = .next t) (hr : t.fault = some r) : r.fpc = s.pc - 2 ∧ Raises s i r.cause := by
  obtain ⟨u, hu⟩ | ⟨c, hc⟩ := completes_or_raises i s
  · obtain rfl := Host.Outcome.next.inj (hu.exec_eq.symm.trans h)
    cases (hu.fault_eq.trans hs).symm.trans hr
  · obtain rfl := Host.Outcome.next.inj (hc.exec_eq.symm.trans h)
    obtain rfl := Option.some.inj ((raise_fault s c).symm.trans hr)
    exact ⟨rfl, hc⟩

/-! ### A halted core (R203, R248) -/

section Halted

variable {s : State} {r : FaultRecord}

theorem not_atEnd_of_fault (h : s.fault = some r) (e : EndPc) : ¬ s.atEnd e := by
  rintro ⟨-, hs⟩
  cases h.symm.trans hs

/-- A run needs END_PC without a fault at once, or a step, and a halted core has neither. -/
theorem finishedAfter_of_fault (h : s.fault = some r) (e : EndPc) (n : Nat) :
    s.finishedAfter e n = none := by
  refine Option.eq_none_iff_forall_ne_some.2 fun t ht => ?_
  obtain ⟨k, u, -, hstep, -⟩ := (finishedAfter_cycle (not_atEnd_of_fault h e)).1 ht
  cases (step_halted h).symm.trans hstep

end Halted

/-! ### The timers over one cycle (R207) -/

section Tick

variable {s : State}

theorem endCycle_dt_toNat (hs : s.running) : s.endCycle.dt.toNat = s.dt.toNat - 1 := by
  rw [endCycle_dt, if_pos hs, tickDown_toNat]

theorem endCycle_st_toNat (hs : s.running) : s.endCycle.st.toNat = s.st.toNat - 1 := by
  rw [endCycle_st, if_pos hs, tickDown_toNat]

end Tick

/-! ### The statements -/

/-- Settles O15: the instruction leaves a timer alone (O27) or sets it to V[X], and the end of the
cycle then ticks it. -/
theorem timersTickOncePerCycle : Obligations.TimersTickOncePerCycle := by
  unfold Obligations.TimersTickOncePerCycle
  intro s t hi lo i _ hhi hlo hd hstep ht
  obtain ⟨u, hu, rfl⟩ := completes_of_step hhi hlo hd hstep ht
  have hrun : u.running := (endCycle_fault u).symm.trans ht
  obtain ⟨hdt, hst⟩ := onlyTimerLoadsWriteTimers i _ u hu.exec_eq hrun
  rw [endCycle_dt_toNat hrun, endCycle_st_toNat hrun]
  refine ⟨fun hne => ?_, fun x hx => ?_, fun hne => ?_, fun x hx => ?_⟩
  · rw [hdt hne, advancePc_dt, startCycle_dt]
  · subst hx
    cases hu
    rw [advancePc_readV, startCycle_readV]
  · rw [hst hne, advancePc_st, startCycle_st]
  · subst hx
    cases hu
    rw [advancePc_readV, startCycle_readV]

/-- Settles O21: the instruction raised the fault (`raises_of_fault`), and each way it can do so gives
one cause under that cause's condition. -/
theorem faultRecordNamesItsCause : Obligations.FaultRecordNamesItsCause := by
  unfold Obligations.FaultRecordNamesItsCause
  rintro i s t ⟨c, fpc⟩ hs h hr
  obtain ⟨hfpc, hraises⟩ := raises_of_fault hs h hr
  refine ⟨hfpc, ?_⟩
  have htop : 0xFFF < max s.base 0x1000 := lt_max_of_lt_right (by decide)
  cases hraises with
  | sys nnn hp => exact ⟨hp, nnn, rfl, rfl⟩
  | ret hsp => exact ⟨hsp, rfl⟩
  | call nnn hsp => exact ⟨hsp, nnn, rfl⟩
  | drw x y n => exact ⟨htop, .inl ⟨x, y, n, rfl⟩⟩
  | skp x hk => exact ⟨hk, x, .inl rfl, rfl⟩
  | sknp x hk => exact ⟨hk, x, .inr rfl, rfl⟩
  | ldB x => exact ⟨htop, .inr ⟨x, .inl rfl⟩⟩
  | storeRegs x => exact ⟨htop, .inr ⟨x, .inr (.inl rfl)⟩⟩
  | loadRegs x => exact ⟨htop, .inr ⟨x, .inr (.inr rfl)⟩⟩

/-- Settles O19: `step` stops with the record (`step_halted`), and no run is finished
(`finishedAfter_of_fault`). -/
theorem haltedCoreHasNoStep : Obligations.HaltedCoreHasNoStep := by
  unfold Obligations.HaltedCoreHasNoStep
  exact fun s r h =>
    ⟨step_halted h, fun e => ⟨not_atEnd_of_fault h e, finishedAfter_of_fault h e⟩⟩

end Sys2Proof.Laws

/-! SUPPORT. Proofs of the statements on reset and boot (spec/70_reset_and_hazards.md): the state
Initialize creates (R240) and the bytes Load program copies (R242). -/

namespace Sys2Proof.Laws

open Sys2Proof.Machine

/-! ### The initialized machine (R240) -/

/-- Each of the 16 entries is one of the zeroes Initialize writes. -/
theorem initialize_stack_get (p : Params) (k : Fin 16) : (State.initialize p).stack.get k = 0 := by
  simp [State.initialize, Vector.get_eq_getElem]

/-- The grid starts as the one CLS leaves (D18). -/
theorem initialize_grid (p : Params) : (State.initialize p).grid = Grid.clear := rfl

/-- Settles O2: the stack and the grid are read entry by entry, and `State.initialize` writes every
other value out. -/
theorem initializeSetsEveryOtherRegister : Obligations.InitializeSetsEveryOtherRegister := by
  unfold Obligations.InitializeSetsEveryOtherRegister
  refine ⟨fun p => ?_, rfl⟩
  have hgrid : ∀ y x, (State.initialize p).grid.pixel y x = false := fun y x => by
    rw [initialize_grid, clear_pixel]
  exact ⟨rfl, rfl, initialize_stack_get p, rfl, rfl, rfl, rfl, hgrid, rfl, rfl⟩

/-- Settles O4: no memory cell is listed, pc is 0x200, and every stack entry is 0. -/
theorem initializedStateSatisfiesInvariant : Obligations.InitializedStateSatisfiesInvariant := by
  unfold Obligations.InitializedStateSatisfiesInvariant
  intro p
  have hpc : (State.initialize p).pc.toNat ≤ 0x10FE :=
    show (0x200#16).toNat ≤ 0x10FE by decide
  have hstack : ∀ k : Fin 16, ((State.initialize p).stack.get k).toNat ≤ 0x1000 := fun k => by
    rw [initialize_stack_get]
    decide
  exact ⟨initialize_wf p, fun _ => ⟨hpc, hstack⟩⟩

/-! ### Load program (R242) -/

/-- The cap is the room from 0x200 to the top of memory. -/
theorem capped_image_fits (image : List Byte) :
    loadAddress + (image.take loadCap).length ≤ 0x1000 := by
  have hcap : (image.take loadCap).length ≤ 3584 := List.length_take_le ..
  exact Nat.add_le_add_left hcap 0x200

/-- Settles O3: what is placed is the image up to the cap, and all of it fits. -/
theorem loadProgramCopiesTheImage : Obligations.LoadProgramCopiesTheImage := by
  unfold Obligations.LoadProgramCopiesTheImage
  refine fun s hw => ⟨rfl, fun image => ⟨_, rfl, fun k hk hcap => ?_, ?_⟩⟩
  · have hlen : k < (image.take loadCap).length := List.length_take ▸ Nat.lt_min.2 ⟨hcap, hk⟩
    calc (s.placeBytes loadAddress (image.take loadCap)).readMem (0x200 + k)
        = .ok (image.take loadCap)[k] := placeBytes_readMem hw (capped_image_fits image) hlen
      _ = .ok image[k] := congrArg _ List.getElem_take
  · have hlen : (image.take loadCap).length = min image.length 3584 :=
      List.length_take.trans (Nat.min_comm ..)
    exact sameBut_placeBytes fun x hx => hlen ▸ hx

end Sys2Proof.Laws
